-- ==== Sys2Proof/Word.lean ====
section
/-! DEFINITION. The word types of the block (rule R13): one byte of a frame and one 16-bit wire value. -/

namespace Sys2Proof

/-- `u8`, an integer 0..255 (rule R13). -/
abbrev Byte := BitVec 8

/-- `u16`, an integer 0..65535 (rule R13): header fields, indices, quantities, register values. -/
abbrev U16 := BitVec 16

end Sys2Proof
end

