-- ==== Sys2Proof/Machine/Codec.lean ====
section
/-! DEFINITION. The Bit-Packing Codec (rules R62, R143, R144). -/

namespace Sys2Proof.Machine

/-- `ceil_div(a, b) = (a + b - 1) div b` (rule R13). -/
def ceilDiv (a b : Nat) : Nat := (a + b - 1) / b

/-- The number whose bit `i` is element `i` of the sequence: element 0 is the least significant bit (rule R62). -/
def bitsToNat : List Bool → Nat
  | [] => 0
  | b :: rest => b.toNat + 2 * bitsToNat rest

/-- The first `n` bytes of a bit sequence, each from 8 elements; missing elements are 0 (rule R143). -/
def packBytes : Nat → List Bool → List Byte
  | 0, _ => []
  | n + 1, bits => BitVec.ofNat 8 (bitsToNat (bits.take 8)) :: packBytes n (bits.drop 8)

/-- `pack`: bit `i` goes to bit `i mod 8` of byte `i div 8`, in `ceil_div(n, 8)` bytes (rule R143). -/
def pack (bits : List Bool) : List Byte := packBytes (ceilDiv bits.length 8) bits

/-- `unpack`: bit `i` of the result is bit `i mod 8` of byte `i div 8` (rule R144). It is called only with
`count <= 8 * |bytes|`, where the default is never reached. DEDUCED (log entry 9), safe. -/
def unpack (bytes : List Byte) (count : Nat) : List Bool :=
  (List.range count).map fun i => (bytes.getD (i / 8) 0).getLsbD (i % 8)

end Sys2Proof.Machine
end

