-- ==== Sys2Proof/Syntax.lean ====
section
/-! DEFINITION. The syntax of requests. An "instruction" is the PDU of one request, selected by its function code (rules
R35, R100); `Instr` has one constructor per row of the opcode table. Also the failure kinds (rules R16, R240), the header a
frame carries around a PDU (rule R91) and the lines of the assembler notation (rules R106, R107). -/

namespace Sys2Proof

/-- The check of a handler that a malformed payload fails. It is internal: no response shows it (rules R17, R240). -/
inductive MalformedReason where
  /-- The payload length is wrong for the format (rules R93, R94, R95). -/
  | payloadLength
  /-- `bc` is not the number of data bytes (rules R192, R193). -/
  | byteCountMismatch
  /-- 0x0F: the data hold fewer than `qty` bits (rule R192, D10). -/
  | tooFewBits
  /-- 0x10: `bc` is not twice `qty` (rule R193). -/
  | byteCountNotTwiceQty
deriving DecidableEq, Repr

/-- The reason an `OtherFailure` carries; internal (rule R17). -/
inductive OtherReason where
  /-- A read response whose data exceed 255 bytes (rule R150, D11). -/
  | byteCountOverflow
deriving DecidableEq, Repr

/-- The seven failure kinds a transaction can end in (rule R240). A failure replaces the response (rule R248); it stops
nothing. -/
inductive Failure where
  | tooShort
  | lengthMismatch
  | missingFunctionCode
  | illegalFunction
  | illegalDataAddress
  | malformed (reason : MalformedReason)
  | otherFailure (reason : OtherReason)
deriving DecidableEq, Repr

/-- A payload of format RANGE (rule R93): the two fields, or a payload that is not 4 bytes long. -/
inductive RangeOperand where
  | fields (start qty : U16)
  | badLength (raw : List Byte)
deriving DecidableEq, Repr

/-- A payload of format SINGLE (rule R94): the two fields, or a payload that is not 4 bytes long. -/
inductive SingleOperand where
  | fields (addr value : U16)
  | badLength (raw : List Byte)
deriving DecidableEq, Repr

/-- A payload of format MULTI (rule R95): the 5-byte head and the data tail, or a payload shorter than the head. -/
inductive MultiOperand where
  | fields (start qty : U16) (bc : Byte) (data : List Byte)
  | tooShort (raw : List Byte)
deriving DecidableEq, Repr

/-- The PDU of a request, one constructor per row of the opcode table (rule R100). -/
inductive Instr where
  /-- fc 0x01, Read Coils (rule R170). -/
  | rdcoils (op : RangeOperand)
  /-- fc 0x02, Read Discrete Inputs (rule R171). -/
  | rddisc (op : RangeOperand)
  /-- fc 0x03, Read Holding Registers (rule R172). -/
  | rdhold (op : RangeOperand)
  /-- fc 0x04, Read Input Registers (rule R173). -/
  | rdinput (op : RangeOperand)
  /-- fc 0x05, Write Single Coil (rule R190). -/
  | wrcoil (op : SingleOperand)
  /-- fc 0x06, Write Single Register (rule R191). -/
  | wrreg (op : SingleOperand)
  /-- fc 0x0F, Write Multiple Coils (rule R192). -/
  | wrcoils (op : MultiOperand)
  /-- fc 0x10, Write Multiple Registers (rule R193). -/
  | wrregs (op : MultiOperand)
  /-- fc 0x11, Report Slave ID (rule R220); its payload is ignored (rule R96). -/
  | reportid (ignored : List Byte)
  /-- Every other fc (rules R101, R221); its payload is not examined. -/
  | illegal (fc : Byte) (unexamined : List Byte)
deriving DecidableEq, Repr

/-- The header fields a sender chooses (rule R91); the length field follows from the PDU. -/
structure Header where
  tid : U16
  pid : U16
  unit : Byte
deriving DecidableEq, Repr

/-- A line of the assembler notation: the eleven forms of rule R106, then the four pseudo-instructions of rule R107. It is
notation, not hardware (D16). -/
inductive AsmLine where
  | rdcoils (start qty : U16)
  | rddisc (start qty : U16)
  | rdhold (start qty : U16)
  | rdinput (start qty : U16)
  | wrcoil (addr value : U16)
  | wrreg (addr value : U16)
  | wrcoils (start qty : U16) (bytes : List Byte)
  | wrregs (start : U16) (values : List U16)
  | reportid
  | pdu (fc : Byte) (bytes : List Byte)
  | raw (bytes : List Byte)
  | setcoil (addr : U16)
  | clrcoil (addr : U16)
  | wrbits (start : U16) (bits : List Bool)
  | illegal (fc : Byte)
deriving DecidableEq, Repr

end Sys2Proof
end

