-- ==== Sys2Proof/Machine/Flags.lean ====
section
/-! DEFINITION. The block has no flags or condition codes (rule R36): the outcome of a transaction is in its response
alone. This file holds the one indicator a response has, the exception function byte and the exception code (rules R11,
R240 to R243). -/

namespace Sys2Proof.Machine

/-- `EXC_FLAG`, ORed into the function code of an exception response (rule R11). -/
def excFlag : Byte := 0x80

/-- The exception code of a failure kind (rules R240, R241, R242): 0x01 Illegal Function, 0x02 Illegal Data Address, and
the fallback 0x04 for every other kind. -/
def exceptionCode : Failure → Byte
  | .illegalFunction => 0x01
  | .illegalDataAddress => 0x02
  | .tooShort => 0x04
  | .lengthMismatch => 0x04
  | .missingFunctionCode => 0x04
  | .malformed _ => 0x04
  | .otherFailure _ => 0x04

/-- The Exception Encoder, `Encode(f, K) = [f | 0x80, code(K)]` (rule R242). -/
def encodeException (f : Byte) (k : Failure) : List Byte := [f ||| excFlag, exceptionCode k]

end Sys2Proof.Machine
end

