-- ==== Sys2Proof/WellFormed.lean ====
section
/-! DEFINITION. Which terms of `Instr` stand for the PDU of a request: each operand form only for payloads of its own
shape, the catch-all only for unsupported function codes, and a payload that a frame's u16 length field can count. -/

namespace Sys2Proof

/-- The nine supported function codes (rules R3, R100). -/
def supportedCodes : List Byte := [0x01, 0x02, 0x03, 0x04, 0x05, 0x06, 0x0F, 0x10, 0x11]

/-- The longest payload: the frame's `len` counts the unit, the function code and the payload in 16 bits (rules R91,
R104), so `2 + |P| <= 65535`. -/
def maxPayload : Nat := 65533

/-- A RANGE operand is well formed when its length-failure form is not 4 bytes long (rule R93) and fits a frame. -/
def RangeOperand.WellFormed : RangeOperand → Bool
  | .fields _ _ => true
  | .badLength raw => raw.length != 4 && decide (raw.length ≤ maxPayload)

/-- A SINGLE operand is well formed when its length-failure form is not 4 bytes long (rule R94) and fits a frame. -/
def SingleOperand.WellFormed : SingleOperand → Bool
  | .fields _ _ => true
  | .badLength raw => raw.length != 4 && decide (raw.length ≤ maxPayload)

/-- A MULTI operand is well formed when its short form is under 5 bytes (rule R95) and its data fit a frame. -/
def MultiOperand.WellFormed : MultiOperand → Bool
  | .fields _ _ _ data => decide (5 + data.length ≤ maxPayload)
  | .tooShort raw => decide (raw.length < 5)

/-- The well-formed instructions: exactly the PDUs that a frame can carry (rules R92 to R96, R101, R104). -/
def Instr.WellFormed : Instr → Bool
  | .rdcoils op => op.WellFormed
  | .rddisc op => op.WellFormed
  | .rdhold op => op.WellFormed
  | .rdinput op => op.WellFormed
  | .wrcoil op => op.WellFormed
  | .wrreg op => op.WellFormed
  | .wrcoils op => op.WellFormed
  | .wrregs op => op.WellFormed
  | .reportid ignored => decide (ignored.length ≤ maxPayload)
  | .illegal fc unexamined => !supportedCodes.contains fc && decide (unexamined.length ≤ maxPayload)

end Sys2Proof
end

