-- ==== Sys2Proof/Decode.lean ====
section
/-! DEFINITION. From the bytes of a PDU to an instruction (rules R93 to R98, R100, R101, R140) and back, the frame around a
PDU (rules R91, R106), and the reading of a word of the opcode table. The parser of whole frames, which loads the latches,
is Machine/Parser.lean. -/

namespace Sys2Proof

/-- A u16 from two consecutive bytes, most significant first: `s[k] * 256 + s[k+1]` (rules R14, R60). -/
def be16 (hi lo : Byte) : U16 := BitVec.ofNat 16 (hi.toNat * 256 + lo.toNat)

/-- A u16 as two big-endian bytes, `[v[15:8], v[7:0]]` (rules R14, R60). -/
def enc16 (v : U16) : List Byte := [v.extractLsb' 8 8, v.extractLsb' 0 8]

/-- The payload of format RANGE (rule R93): exactly 4 bytes (D9). -/
def decodeRange : List Byte → RangeOperand
  | [s1, s0, q1, q0] => .fields (be16 s1 s0) (be16 q1 q0)
  | raw => .badLength raw

/-- The payload of format SINGLE (rule R94): exactly 4 bytes (D9). -/
def decodeSingle : List Byte → SingleOperand
  | [a1, a0, v1, v0] => .fields (be16 a1 a0) (be16 v1 v0)
  | raw => .badLength raw

/-- The payload of format MULTI (rule R95): a 5-byte head and the data tail. -/
def decodeMulti : List Byte → MultiOperand
  | s1 :: s0 :: q1 :: q0 :: bc :: data => .fields (be16 s1 s0) (be16 q1 q0) bc data
  | raw => .tooShort raw

/-- The instruction that a function code and its payload stand for: the exact 8-bit match of rules R100 and R140, with
every other code the catch-all of rule R101. -/
def decodePayload (fc : Byte) (P : List Byte) : Instr :=
  match fc.toNat with
  | 0x01 => .rdcoils (decodeRange P)
  | 0x02 => .rddisc (decodeRange P)
  | 0x03 => .rdhold (decodeRange P)
  | 0x04 => .rdinput (decodeRange P)
  | 0x05 => .wrcoil (decodeSingle P)
  | 0x06 => .wrreg (decodeSingle P)
  | 0x0F => .wrcoils (decodeMulti P)
  | 0x10 => .wrregs (decodeMulti P)
  | 0x11 => .reportid P
  | _ => .illegal fc P

/-- The decoder of a PDU, `fc = pdu[0]` and `P = pdu[1 ..]` (rule R91). It rejects only the empty PDU, by the name of rule
R135. -/
def decode : List Byte → Except Failure Instr
  | [] => .error .missingFunctionCode
  | fc :: P => .ok (decodePayload fc P)

/-- The payload bytes of a RANGE operand (rule R93). -/
def encodeRange : RangeOperand → List Byte
  | .fields start qty => enc16 start ++ enc16 qty
  | .badLength raw => raw

/-- The payload bytes of a SINGLE operand (rule R94). -/
def encodeSingle : SingleOperand → List Byte
  | .fields addr value => enc16 addr ++ enc16 value
  | .badLength raw => raw

/-- The payload bytes of a MULTI operand (rule R95). -/
def encodeMulti : MultiOperand → List Byte
  | .fields start qty bc data => enc16 start ++ enc16 qty ++ [bc] ++ data
  | .tooShort raw => raw

/-- The payload bytes of an instruction (rules R93 to R96, R101). -/
def encodePayload : Instr → List Byte
  | .rdcoils op => encodeRange op
  | .rddisc op => encodeRange op
  | .rdhold op => encodeRange op
  | .rdinput op => encodeRange op
  | .wrcoil op => encodeSingle op
  | .wrreg op => encodeSingle op
  | .wrcoils op => encodeMulti op
  | .wrregs op => encodeMulti op
  | .reportid ignored => ignored
  | .illegal _ unexamined => unexamined

/-- The function code of an instruction (rule R100). -/
def Instr.functionCode : Instr → Byte
  | .rdcoils _ => 0x01
  | .rddisc _ => 0x02
  | .rdhold _ => 0x03
  | .rdinput _ => 0x04
  | .wrcoil _ => 0x05
  | .wrreg _ => 0x06
  | .wrcoils _ => 0x0F
  | .wrregs _ => 0x10
  | .reportid _ => 0x11
  | .illegal fc _ => fc

/-- The PDU of an instruction: the function code, then the payload (rule R91). -/
def encode (i : Instr) : List Byte := i.functionCode :: encodePayload i

/-- A PDU in its frame, `enc16(T) ++ enc16(P) ++ enc16(1 + |pdu|) ++ [U] ++ pdu` (rules R91, R106). -/
def frameOfPdu (h : Header) (pdu : List Byte) : List Byte :=
  enc16 h.tid ++ enc16 h.pid ++ enc16 (BitVec.ofNat 16 (1 + pdu.length)) ++ [h.unit] ++ pdu

/-- The default header of the assembler notation (rule R106). -/
def Header.default : Header where
  tid := 0x0000#16
  pid := 0x0000#16
  unit := 0x01#8

/-- The request frame of an instruction under a header. -/
def encodeFrame (h : Header) (i : Instr) : List Byte := frameOfPdu h (encode i)

/-- The first `n` bytes of a number, least significant byte first: how the opcode table numbers its bits. -/
def tableBytes : Nat → Nat → List Byte
  | 0, _ => []
  | n + 1, w => BitVec.ofNat 8 w :: tableBytes n (w / 256)

/-- How many payload bytes the shortest well-shaped request of a function code has (rules R93 to R96, R101). -/
def shortestPayload (fc : Byte) : Nat :=
  match fc.toNat with
  | 0x01 | 0x02 | 0x03 | 0x04 | 0x05 | 0x06 => 4
  | 0x0F | 0x10 => 5
  | _ => 0

/-- The PDU of a word of the opcode table. DESIGN CHOICE (log entry 10), safe: the table gives a row the bits of its
function code byte alone; the operand bytes that its format has beyond them are zeros. -/
def tablePdu (nbits w : Nat) : List Byte :=
  let head := tableBytes ((nbits + 7) / 8) w
  head ++ List.replicate (1 + shortestPayload (head.headD 0) - head.length) 0

/-- The instruction the decoder reads from a word of the opcode table. -/
def decodeTableWord (nbits w : Nat) : Option Instr :=
  match decode (tablePdu nbits w) with
  | .ok i => some i
  | .error _ => none

end Sys2Proof
end

