-- ==== Sys2Proof/Machine/Operands.lean ====
section
/-! DEFINITION. The quantities derived from operands (rules R97, R98) and the constants they are compared with (rule R11).
All arithmetic is exact, on natural numbers (rule R13, D12). -/

namespace Sys2Proof.Machine

/-- `COIL_ON`, the only Write Single Coil value that sets a coil (rule R11). -/
def coilOn : U16 := 0xFF00

/-- `RUN_INDICATOR` of Report Slave ID (rule R11). -/
def runIndicator : Byte := 0xFF

/-- The bit a Write Single Coil value decodes to: 1 for 0xFF00, 0 for every other value (rule R98). -/
def coilBit (value : U16) : Bool := value == coilOn

/-- The register values of a data field: `be16(data, 2*j)` for each pair of bytes in turn (rule R97). A last odd byte has
no pair; no handler reaches it (rule R193 checks `bc = 2*qty = |data|` first). -/
def registerValues : List Byte → List U16
  | hi :: lo :: rest => be16 hi lo :: registerValues rest
  | _ => []

end Sys2Proof.Machine
end

