-- ==== Sys2Proof/Config.lean ====
section
/-! DEFINITION. The two parameters of the block (rules R9, R10), the values they have in
`Machine.State.reset`. -/

namespace Sys2Proof

/-- The implementation parameters. They are fixed before reset and no step changes them (rules R9, R10, R37, R44). The
bounds stand in the type, so that every value of it is one the spec allows: `N >= 1` (D2) and `L_ID <= 253` (D3).
DESIGN CHOICE (log entry 1), safe: the machine carries them beside its store, so that a claim holds for every choice. -/
structure Params where
  /-- `N`, the number of elements of each of the four store arrays (rule R9). -/
  size : Nat
  /-- `IDENT_BYTES`, the identification bytes of Report Slave ID (rule R10). -/
  identBytes : List Byte
  size_pos : 1 ≤ size
  ident_bound : identBytes.length ≤ 253
deriving DecidableEq, Repr

/-- The free value behind `IDENT_BYTES`: the source gives neither its bytes nor its length (rule R10, OPEN). Nothing in Lean
can evaluate it. DESIGN CHOICE (log entry 2), safe: a claim that holds of it holds of every value. -/
opaque Config.identSource : List Byte

/-- `IDENT_BYTES` of the machine after reset: free, within the bound `L_ID <= 253` of rule R10. -/
def Config.identBytes : List Byte := Config.identSource.take 253

/-- The parameters of `Machine.State.reset`: the default `N = 1000` (rule R9) and the open `IDENT_BYTES`. -/
def Config.params : Params where
  size := 1000
  identBytes := Config.identBytes
  size_pos := by decide
  ident_bound := by simp only [Config.identBytes, List.length_take]; omega

end Sys2Proof
end

