-- ==== Sys2Proof/Machine/State.lean ====
section
/-! DEFINITION. The state of the block: the Data Store (rules R30 to R34), the latches and buffers of a transaction (rules
R38, R40), the parameters, and the run around it (rules R71, R289): the steps the environment and the host have still to
take, and what the run has shown. Also the reasons a step can stop, and reset. -/

namespace Sys2Proof.Machine

/-- One store array, sparse: (index, element) pairs with indices strictly rising and no element equal to what an unlisted
index reads as, which is the array's reset value (rule R43). An index names an element, not a byte (rule R40). DESIGN
CHOICE (log entry 7), safe: equal arrays are equal lists. -/
abbrev Memory (α : Type) := List (Nat × α)

/-- The two spaces of single-bit elements (rule R40). -/
inductive BitSpace where
  /-- `CO`, coils. -/
  | co
  /-- `DI`, discrete inputs. -/
  | di
deriving DecidableEq, Repr

/-- The two spaces of 16-bit elements (rule R40). -/
inductive RegSpace where
  /-- `HR`, holding registers. -/
  | hr
  /-- `IR`, input registers. -/
  | ir
deriving DecidableEq, Repr

/-- The Data Store, the only state that lasts from one transaction to the next (rule R30). -/
structure Store where
  /-- Coils, `N` single-bit elements (rule R33). -/
  co : Memory Bool
  /-- Discrete inputs, `N` single-bit elements (rule R34). -/
  di : Memory Bool
  /-- Holding registers, `N` elements of 16 bits (rule R31). -/
  hr : Memory U16
  /-- Input registers, `N` elements of 16 bits (rule R32). -/
  ir : Memory U16
deriving DecidableEq, Repr

/-- The latches of a transaction (rule R38). -/
structure Latches where
  tid : U16
  pid : U16
  len : U16
  unit : Byte
  fc : Byte
  /-- `P`. -/
  payload : List Byte
deriving DecidableEq, Repr

/-- The latches at the start of a transaction, and between transactions: all 0, `P` empty (rules R38, R44). -/
def Latches.clear : Latches where
  tid := 0
  pid := 0
  len := 0
  unit := 0
  fc := 0
  payload := []

/-- One step of a run (rule R289). A host access names one element of one space (rule R42). -/
inductive RunStep where
  | reset
  | transaction (req : List Byte)
  | hostReadBit (sp : BitSpace) (index : Nat)
  | hostReadReg (sp : RegSpace) (index : Nat)
  | hostWriteBit (sp : BitSpace) (index : Nat) (value : Bool)
  | hostWriteReg (sp : RegSpace) (index : Nat) (value : U16)
deriving DecidableEq, Repr

/-- What a host access gives back: the element read, or the failure of rules R66 and R69 for an index outside the space. -/
inductive HostAnswer where
  | bit (value : Bool)
  | reg (value : U16)
  | illegalDataAddress
deriving DecidableEq, Repr

/-- A request and its response (rule R289). -/
structure Exchange where
  req : List Byte
  rsp : List Byte
deriving DecidableEq, Repr

/-- The whole machine. -/
structure State where
  /-- `N` and `IDENT_BYTES` (rules R9, R10); no step changes them. -/
  params : Params
  /-- The Data Store (rule R30). -/
  store : Store
  /-- The latches (rule R38); clear outside a transaction. -/
  latches : Latches
  /-- `Req`, the request of the transaction in progress (rule R40). DESIGN CHOICE (log entry 8), unsafe: empty outside
  one. -/
  req : List Byte
  /-- `Rsp`, the response emitted last (rules R40, R286). DESIGN CHOICE (log entry 8), unsafe: it stays until the next
  transaction or reset, and is empty before the first response. -/
  rsp : List Byte
  /-- The model's own: the steps the environment and the host take from here on, in their one total order (rules R71, R72,
  R289). The block has no queue (rule R39); this list is its surroundings. DESIGN CHOICE (log entry 3), unsafe: it says that
  an idle block takes idle steps. -/
  schedule : List RunStep
  /-- The model's own: the (request, response) pairs the run has shown, oldest first (rule R289). -/
  exchanges : List Exchange
  /-- The model's own: what the host's accesses gave back, oldest first (rule R289). -/
  hostAnswers : List HostAnswer
deriving DecidableEq, Repr

/-- The reasons the machine can stop with a fault. There is none: the block "always returns a well-formed response frame,
never propagates an unhandled fault to its caller" (rules R142, R147, R148). Its failures are responses (`Failure`).
DEDUCED (log entry 17), safe. -/
inductive Fault where
deriving DecidableEq, Repr

/-- The reasons an instruction can be refused. -/
inductive Refusal where
  /-- Raised by `exec` for an instruction without a meaning; no arm does so. Safe: the machine stops where the block goes
  on. -/
  | notModelled (mnemonic : String)
deriving DecidableEq, Repr

/-- Every element of the four arrays 0: no element listed (rule R43). DESIGN CHOICE of the spec's own (D4, log entry 6),
unsafe: a build may start from other contents. -/
def Store.zero : Store where
  co := []
  di := []
  hr := []
  ir := []

/-- The machine right after reset (rules R43, R44, R281): the store all zero, no transaction in progress, waiting for its
first request, with nothing presented yet and nothing shown. -/
def State.reset : State where
  params := Config.params
  store := Store.zero
  latches := Latches.clear
  req := []
  rsp := []
  schedule := []
  exchanges := []
  hostAnswers := []

end Sys2Proof.Machine
end

