-- ==== Sys2Proof/Machine/Ops.lean ====
section
/-! DEFINITION. The named operations of the machine: the store arrays (rules R15, R66), the Response Frame Builder (rule
R146), ending a transaction (rules R38, R147), and taking an exception (rules R242 to R248). There is no return from an
exception: a transaction that failed is over once its response is emitted (rule R249). -/

namespace Sys2Proof.Machine

/-- The element at an index; an unlisted index reads as `dflt`. -/
def Memory.get {α : Type} (dflt : α) : Memory α → Nat → α
  | [], _ => dflt
  | (j, w) :: rest, i => if j = i then w else Memory.get dflt rest i

/-- Writes one element, keeping indices rising and listing no element equal to `dflt`. -/
def Memory.set {α : Type} [DecidableEq α] (dflt : α) : Memory α → Nat → α → Memory α
  | [], i, v => if v = dflt then [] else [(i, v)]
  | (j, w) :: rest, i, v =>
    if i < j then (if v = dflt then (j, w) :: rest else (i, v) :: (j, w) :: rest)
    else if i = j then (if v = dflt then rest else (i, v) :: rest)
    else (j, w) :: Memory.set dflt rest i v

/-- `MemRead(sp, a, n)`: the `n` elements from index `a` on (rule R15). -/
def Memory.read {α : Type} (dflt : α) (m : Memory α) (a n : Nat) : List α :=
  (List.range n).map fun j => Memory.get dflt m (a + j)

/-- `MemWrite(sp, a, n, vs)`: element `vs[j]` to index `a + j`, in ascending order (rules R15, R68). -/
def Memory.write {α : Type} [DecidableEq α] (dflt : α) : Memory α → Nat → List α → Memory α
  | m, _, [] => m
  | m, a, v :: vs => Memory.write dflt (Memory.set dflt m a v) (a + 1) vs

/-- Every listed index is at least `lo` and below `n`, indices rise strictly, and no listed element is `dflt`. -/
def Memory.wfFrom {α : Type} [DecidableEq α] (dflt : α) (n : Nat) : Nat → Memory α → Bool
  | _, [] => true
  | lo, (i, v) :: rest => decide (lo ≤ i) && decide (i < n) && decide (v ≠ dflt) && Memory.wfFrom dflt n (i + 1) rest

/-- The canonical form of a store array of `n` elements (rules R30, R41). -/
def Memory.wf {α : Type} [DecidableEq α] (dflt : α) (n : Nat) (m : Memory α) : Bool := Memory.wfFrom dflt n 0 m

/-- The array of a bit space. -/
def Store.bits (st : Store) : BitSpace → Memory Bool
  | .co => st.co
  | .di => st.di

/-- The array of a register space. -/
def Store.regs (st : Store) : RegSpace → Memory U16
  | .hr => st.hr
  | .ir => st.ir

/-- `CO[i]` or `DI[i]` (rule R15). -/
def Store.bit (st : Store) (sp : BitSpace) (i : Nat) : Bool := Memory.get false (st.bits sp) i

/-- `HR[i]` or `IR[i]` (rule R15). -/
def Store.reg (st : Store) (sp : RegSpace) (i : Nat) : U16 := Memory.get 0 (st.regs sp) i

/-- Writes bits from index `a` on. -/
def Store.writeBits (st : Store) (sp : BitSpace) (a : Nat) (vs : List Bool) : Store :=
  match sp with
  | .co => { st with co := Memory.write false st.co a vs }
  | .di => { st with di := Memory.write false st.di a vs }

/-- Writes registers from index `a` on. -/
def Store.writeRegs (st : Store) (sp : RegSpace) (a : Nat) (vs : List U16) : Store :=
  match sp with
  | .hr => { st with hr := Memory.write 0 st.hr a vs }
  | .ir => { st with ir := Memory.write 0 st.ir a vs }

/-- The store of a block of size `n` is in its canonical form. -/
def Store.wf (n : Nat) (st : Store) : Bool :=
  Memory.wf false n st.co && Memory.wf false n st.di && Memory.wf 0 n st.hr && Memory.wf 0 n st.ir

/-- The bounds check of every store access: `n` elements from index `a` lie inside the space (rule R66). -/
def State.inRange (s : State) (a n : Nat) : Bool := decide (a + n ≤ s.params.size)

/-- What a handler gives when it does not fail, `Ok(pdu)` (rules R16, R17), with the store it leaves. -/
abbrev Reply := List Byte × Store

/-- The Response Frame Builder, `Frame(t, p, u, r)` (rule R146). DEDUCED (log entry 14), safe: the length field is
narrowed to 16 bits, which loses nothing for the PDUs of at most 257 bytes that exist (rules R105, R249). -/
def frame (t p : U16) (u : Byte) (r : List Byte) : List Byte :=
  enc16 t ++ enc16 p ++ enc16 (BitVec.ofNat 16 (1 + r.length)) ++ [u] ++ r

/-- The end of a transaction. DESIGN CHOICE (log entry 12), safe: the header and function code come from the latches,
which in a step are those of the instruction. The response is emitted, the run shows it beside its request, and the
latches and the request are discarded (rules R38, R130, R147, R289). -/
def State.emit (s : State) (store : Store) (pdu : List Byte) : State :=
  let rsp := frame s.latches.tid s.latches.pid s.latches.unit pdu
  { s with
    store := store
    latches := Latches.clear
    req := []
    rsp := rsp
    exchanges := s.exchanges ++ [⟨s.req, rsp⟩] }

/-- Taking an exception: the response is the exception PDU, under the header fields and the function code the latches hold,
and no store element changes (rules R242 to R248). -/
def State.takeException (s : State) (k : Failure) : State :=
  s.emit s.store (encodeException s.latches.fc k)

/-- From the outcome of a handler to the end of the transaction (rules R130, R142). -/
def State.respond (s : State) : Except Failure Reply → State
  | .ok (pdu, store) => s.emit store pdu
  | .error k => s.takeException k

end Sys2Proof.Machine
end

