-- ==== Sys2Proof/Machine/Read.lean ====
section
/-! DEFINITION. The read function codes 0x01 to 0x04 (rules R169 to R175): two shared handler bodies and one meaning per
code. -/

namespace Sys2Proof.Machine

/-- Building a read response: the byte count and the data, unless the data exceed the one-byte count (rule R150). -/
def readReply (f : Byte) (store : Store) (d : List Byte) : Except Failure Reply :=
  if d.length > 255 then .error (.otherFailure .byteCountOverflow)
  else .ok ([f, BitVec.ofNat 8 d.length] ++ d, store)

/-- `ReadBits(sp, f, P)` (rule R169). -/
def readBits (sp : BitSpace) (f : Byte) (op : RangeOperand) (s : State) : Except Failure Reply :=
  match op with
  | .badLength _ => .error (.malformed .payloadLength)
  | .fields start qty =>
    if s.inRange start.toNat qty.toNat then
      readReply f s.store (pack (Memory.read false (s.store.bits sp) start.toNat qty.toNat))
    else .error .illegalDataAddress

/-- `ReadRegs(sp, f, P)` (rule R169). -/
def readRegs (sp : RegSpace) (f : Byte) (op : RangeOperand) (s : State) : Except Failure Reply :=
  match op with
  | .badLength _ => .error (.malformed .payloadLength)
  | .fields start qty =>
    if s.inRange start.toNat qty.toNat then
      readReply f s.store ((Memory.read 0 (s.store.regs sp) start.toNat qty.toNat).flatMap enc16)
    else .error .illegalDataAddress

/-- RDCOILS (rule R170). -/
def execRdcoils (op : RangeOperand) (s : State) : Host.Outcome State Fault Refusal :=
  .next (s.respond (readBits .co 0x01 op s))

/-- RDDISC (rule R171). -/
def execRddisc (op : RangeOperand) (s : State) : Host.Outcome State Fault Refusal :=
  .next (s.respond (readBits .di 0x02 op s))

/-- RDHOLD (rule R172). -/
def execRdhold (op : RangeOperand) (s : State) : Host.Outcome State Fault Refusal :=
  .next (s.respond (readRegs .hr 0x03 op s))

/-- RDINPUT (rule R173). -/
def execRdinput (op : RangeOperand) (s : State) : Host.Outcome State Fault Refusal :=
  .next (s.respond (readRegs .ir 0x04 op s))

end Sys2Proof.Machine
end

