-- ==== Sys2Proof/Machine/Report.lean ====
section
/-! DEFINITION. Report Slave ID (rule R220) and the catch-all for unsupported function codes (rule R221). -/

namespace Sys2Proof.Machine

/-- `ReportSlaveId(P, unit)`: no check; the slave id is the request's unit (rule R220). The payload is ignored (D13). -/
def reportSlaveId (_ignored : List Byte) (s : State) : Except Failure Reply :=
  .ok ([0x11, BitVec.ofNat 8 (2 + s.params.identBytes.length), s.latches.unit, runIndicator] ++ s.params.identBytes, s.store)

/-- REPORTID (rule R220). -/
def execReportid (ignored : List Byte) (s : State) : Host.Outcome State Fault Refusal :=
  .next (s.respond (reportSlaveId ignored s))

/-- ILLEGAL, every other function code: its whole effect is to raise IllegalFunction (rules R101, R221). The function byte
of the response comes from the latch (rule R242). -/
def execIllegal (_fc : Byte) (_unexamined : List Byte) (s : State) : Host.Outcome State Fault Refusal :=
  .next (s.takeException .illegalFunction)

end Sys2Proof.Machine
end

