-- ==== Sys2Proof/Machine/Write.lean ====
section
/-! DEFINITION. The write function codes 0x05, 0x06, 0x0F and 0x10 (rules R190 to R195): every check comes before the
store write. DEDUCED (log entry 11), safe: the echo of 0x05 and 0x06 is written from the decoded fields, which give back the
payload's own bytes. -/

namespace Sys2Proof.Machine

/-- `WriteSingleCoil(P)` (rule R190). -/
def writeSingleCoil (op : SingleOperand) (s : State) : Except Failure Reply :=
  match op with
  | .badLength _ => .error (.malformed .payloadLength)
  | .fields addr value =>
    if s.inRange addr.toNat 1 then
      .ok ([0x05] ++ enc16 addr ++ enc16 value, s.store.writeBits .co addr.toNat [coilBit value])
    else .error .illegalDataAddress

/-- `WriteSingleRegister(P)` (rule R191). -/
def writeSingleRegister (op : SingleOperand) (s : State) : Except Failure Reply :=
  match op with
  | .badLength _ => .error (.malformed .payloadLength)
  | .fields addr value =>
    if s.inRange addr.toNat 1 then
      .ok ([0x06] ++ enc16 addr ++ enc16 value, s.store.writeRegs .hr addr.toNat [value])
    else .error .illegalDataAddress

/-- `WriteMultipleCoils(P)` (rule R192). -/
def writeMultipleCoils (op : MultiOperand) (s : State) : Except Failure Reply :=
  match op with
  | .tooShort _ => .error (.malformed .payloadLength)
  | .fields start qty bc data =>
    if bc.toNat ≠ data.length then .error (.malformed .byteCountMismatch)
    else if 8 * bc.toNat < qty.toNat then .error (.malformed .tooFewBits)
    else if s.inRange start.toNat qty.toNat then
      .ok ([0x0F] ++ enc16 start ++ enc16 qty, s.store.writeBits .co start.toNat (unpack data qty.toNat))
    else .error .illegalDataAddress

/-- `WriteMultipleRegisters(P)` (rule R193). -/
def writeMultipleRegisters (op : MultiOperand) (s : State) : Except Failure Reply :=
  match op with
  | .tooShort _ => .error (.malformed .payloadLength)
  | .fields start qty bc data =>
    if bc.toNat ≠ qty.toNat * 2 then .error (.malformed .byteCountNotTwiceQty)
    else if bc.toNat ≠ data.length then .error (.malformed .byteCountMismatch)
    else if s.inRange start.toNat qty.toNat then
      .ok ([0x10] ++ enc16 start ++ enc16 qty, s.store.writeRegs .hr start.toNat (registerValues data))
    else .error .illegalDataAddress

/-- WRCOIL (rule R190). -/
def execWrcoil (op : SingleOperand) (s : State) : Host.Outcome State Fault Refusal :=
  .next (s.respond (writeSingleCoil op s))

/-- WRREG (rule R191). -/
def execWrreg (op : SingleOperand) (s : State) : Host.Outcome State Fault Refusal :=
  .next (s.respond (writeSingleRegister op s))

/-- WRCOILS (rule R192). -/
def execWrcoils (op : MultiOperand) (s : State) : Host.Outcome State Fault Refusal :=
  .next (s.respond (writeMultipleCoils op s))

/-- WRREGS (rule R193). -/
def execWrregs (op : MultiOperand) (s : State) : Host.Outcome State Fault Refusal :=
  .next (s.respond (writeMultipleRegisters op s))

end Sys2Proof.Machine
end

