-- ==== Sys2Proof/Machine/Dispatch.lean ====
section
/-! DEFINITION. The Function Dispatcher's closed choice (rule R140): one arm per row of the opcode table. -/

namespace Sys2Proof.Machine

def exec (i : Instr) (s : State) : Host.Outcome State Fault Refusal :=
  match i with
  | .rdcoils op => Sys2Proof.Machine.execRdcoils op s
  | .rddisc op => Sys2Proof.Machine.execRddisc op s
  | .rdhold op => Sys2Proof.Machine.execRdhold op s
  | .rdinput op => Sys2Proof.Machine.execRdinput op s
  | .wrcoil op => Sys2Proof.Machine.execWrcoil op s
  | .wrreg op => Sys2Proof.Machine.execWrreg op s
  | .wrcoils op => Sys2Proof.Machine.execWrcoils op s
  | .wrregs op => Sys2Proof.Machine.execWrregs op s
  | .reportid ignored => Sys2Proof.Machine.execReportid ignored s
  | .illegal fc unexamined => Sys2Proof.Machine.execIllegal fc unexamined s

end Sys2Proof.Machine
end

