-- ==== Sys2Proof/Machine/HostPort.lean ====
section
/-! DEFINITION. The steps of a run that are not transactions: the host's accesses to single elements (rules R42, R69) and
reset (rules R280, R281, R288). DESIGN CHOICE (log entry 4), unsafe: the spec says that an access outside the space raises
IllegalDataAddress and touches nothing, not how the host learns of it; here the host port answers so and the run goes on. -/

namespace Sys2Proof.Machine

/-- The host port gives back an answer. -/
def State.answerHost (s : State) (a : HostAnswer) : State := { s with hostAnswers := s.hostAnswers ++ [a] }

/-- The host reads a coil or discrete input; the read changes no element (rules R42, R67). -/
def State.hostReadBit (s : State) (sp : BitSpace) (i : Nat) : State :=
  if s.inRange i 1 then s.answerHost (.bit (s.store.bit sp i)) else s.answerHost .illegalDataAddress

/-- The host reads a holding or input register; the read changes no element (rules R42, R67). -/
def State.hostReadReg (s : State) (sp : RegSpace) (i : Nat) : State :=
  if s.inRange i 1 then s.answerHost (.reg (s.store.reg sp i)) else s.answerHost .illegalDataAddress

/-- The host writes a coil or discrete input: only the element it names (rule R42). -/
def State.hostWriteBit (s : State) (sp : BitSpace) (i : Nat) (v : Bool) : State :=
  if s.inRange i 1 then { s with store := s.store.writeBits sp i [v] } else s.answerHost .illegalDataAddress

/-- The host writes a holding or input register: only the element it names (rule R42). -/
def State.hostWriteReg (s : State) (sp : RegSpace) (i : Nat) (v : U16) : State :=
  if s.inRange i 1 then { s with store := s.store.writeRegs sp i [v] } else s.answerHost .illegalDataAddress

/-- Reset, applied between transactions (rule R280): the store at its reset values, no transaction in progress and no
response emitted (rule R281). The parameters stay (rule R44). DESIGN CHOICE (log entry 5), unsafe: what the run has shown
and what is still presented stay too, since they are the run's and not the block's (rule R289). -/
def State.applyReset (s : State) : State :=
  { s with store := Store.zero, latches := Latches.clear, req := [], rsp := [] }

end Sys2Proof.Machine
end

