-- ==== Sys2Proof/Machine/Parser.lean ====
section
/-! DEFINITION. The Request Frame Parser (rules R130 to R139): which latches a request loads, and the frame-level failure
that stops it, if one does. -/

namespace Sys2Proof.Machine

/-- The parser's five steps (rules R131 to R135). It answers the latches as loaded when it stops, and the failure that
stopped it, `none` when the frame is accepted. A latch the parser does not reach stays 0 (rules R38, R136). -/
def parse (req : List Byte) : Latches × Option Failure :=
  match req with
  | t1 :: t0 :: p1 :: p0 :: l1 :: l0 :: u :: pdu =>
    let header := { Latches.clear with tid := be16 t1 t0, pid := be16 p1 p0, len := be16 l1 l0 }
    if req.length ≠ 6 + header.len.toNat then (header, some .lengthMismatch)
    else
      let withUnit := { header with unit := u }
      match pdu with
      | [] => (withUnit, some .missingFunctionCode)
      | fc :: P => ({ withUnit with fc := fc, payload := P }, none)
  | _ => (Latches.clear, some .tooShort)

/-- The decoder of whole request frames: the header and the instruction, or the frame-level failure by name. -/
def decodeFrame (req : List Byte) : Except Failure (Header × Instr) :=
  match parse req with
  | (_, some k) => .error k
  | (l, none) => .ok (⟨l.tid, l.pid, l.unit⟩, decodePayload l.fc l.payload)

/-- The start of a transaction: the request is in its buffer, no response has been emitted for it, and the latches are as
the parser loads them (rules R38, R130). -/
def State.load (s : State) (req : List Byte) : State :=
  { s with latches := (parse req).1, req := req, rsp := [] }

end Sys2Proof.Machine
end

