-- ==== Sys2Proof/Machine/Run.lean ====
section
/-! DEFINITION. The four kinds of step of a run (rule R289), each taken whole. -/

namespace Sys2Proof.Machine

/-- One transaction, `Process(Req)` (rule R130), whole in one step (rules R68, R286). DESIGN CHOICE (log entry 13), unsafe
for a run that breaks the environment's duties. In it the parser loads the latches; a frame-level failure ends the
transaction with its exception response, and an accepted frame is dispatched. -/
def State.transact (s : State) (req : List Byte) : Host.Outcome State Fault Refusal :=
  let loaded := s.load req
  match (parse req).2 with
  | some k => .next (loaded.takeException k)
  | none => exec (decodePayload loaded.latches.fc loaded.latches.payload) loaded

/-- A reset, a transaction, a host read or a host write (rule R289). -/
def State.take (s : State) : RunStep → Host.Outcome State Fault Refusal
  | .reset => .next s.applyReset
  | .transaction req => s.transact req
  | .hostReadBit sp i => .next (s.hostReadBit sp i)
  | .hostReadReg sp i => .next (s.hostReadReg sp i)
  | .hostWriteBit sp i v => .next (s.hostWriteBit sp i v)
  | .hostWriteReg sp i v => .next (s.hostWriteReg sp i v)

end Sys2Proof.Machine
end

