-- ==== Sys2Proof/Machine/Step.lean ====
section
/-! DEFINITION. One step of a run: the next step of the schedule, in the one total order of rules R71 and R72. -/

namespace Sys2Proof.Machine

/-- One step: the next one presented is taken (rules R71, R72, R289). With nothing presented the block is idle and the store
holds its contents (rule R257). DESIGN CHOICE (log entry 3), unsafe: idling is a step that changes nothing. -/
def step (s : State) : Host.Outcome State Fault Refusal :=
  match s.schedule with
  | [] => .next s
  | x :: rest => State.take { s with schedule := rest } x

/-- `s` with the instruction of a word of the opcode table presented as the next request, in a frame under the default
header. It stands for the environment presenting a request (log entries 3 and 10). -/
def State.withFetchWord (s : State) (nbits w : Nat) : State :=
  { s with schedule := .transaction (frameOfPdu Header.default (tablePdu nbits w)) :: s.schedule }

end Sys2Proof.Machine
end

