-- ==== Sys2Proof/Machine/Assembler.lean ====
section
/-! DEFINITION. The assembler notation (rules R106, R107). It is notation, not hardware: it writes requests. DESIGN
CHOICE (log entry 18), safe: an empty byte or value list is accepted. -/

namespace Sys2Proof.Machine

/-- A payload in its frame, refused when the length field cannot count it (rule R106). -/
def assemblePdu (h : Header) (fc : Byte) (pl : List Byte) : Option (List Byte) :=
  if 2 + pl.length > 65535 then none else some (frameOfPdu h (fc :: pl))

/-- `WRCOILS start, qty, {b0, ..., bk}`; refused when the byte count does not fit its field (rule R106). -/
def assembleWrcoils (h : Header) (start qty : U16) (bytes : List Byte) : Option (List Byte) :=
  if bytes.length > 255 then none
  else assemblePdu h 0x0F (enc16 start ++ enc16 qty ++ [BitVec.ofNat 8 bytes.length] ++ bytes)

/-- `WRREGS start, {v0, ..., vk}`; refused when `2(k+1)` does not fit the byte count (rule R106). -/
def assembleWrregs (h : Header) (start : U16) (values : List U16) : Option (List Byte) :=
  if 2 * values.length > 255 then none
  else assemblePdu h 0x10 (enc16 start ++ enc16 (BitVec.ofNat 16 values.length) ++
    [BitVec.ofNat 8 (2 * values.length)] ++ values.flatMap enc16)

/-- The frame a line assembles to, none for a line the assembler refuses (rules R106, R107). -/
def assemble (h : Header) : AsmLine → Option (List Byte)
  | .rdcoils start qty => assemblePdu h 0x01 (enc16 start ++ enc16 qty)
  | .rddisc start qty => assemblePdu h 0x02 (enc16 start ++ enc16 qty)
  | .rdhold start qty => assemblePdu h 0x03 (enc16 start ++ enc16 qty)
  | .rdinput start qty => assemblePdu h 0x04 (enc16 start ++ enc16 qty)
  | .wrcoil addr value => assemblePdu h 0x05 (enc16 addr ++ enc16 value)
  | .wrreg addr value => assemblePdu h 0x06 (enc16 addr ++ enc16 value)
  | .wrcoils start qty bytes => assembleWrcoils h start qty bytes
  | .wrregs start values => assembleWrregs h start values
  | .reportid => assemblePdu h 0x11 []
  | .pdu fc bytes => assemblePdu h fc bytes
  | .raw bytes => some bytes
  | .setcoil addr => assemblePdu h 0x05 (enc16 addr ++ enc16 0xFF00)
  | .clrcoil addr => assemblePdu h 0x05 (enc16 addr ++ enc16 0x0000)
  | .wrbits start bits => assembleWrcoils h start (BitVec.ofNat 16 bits.length) (pack bits)
  | .illegal fc => assemblePdu h fc []

end Sys2Proof.Machine
end

