-- ==== Sys2Proof/Safety.lean ====
section
/-! DEFINITION. The terms that claims about the machine use: what a finished transaction leaves, what a response frame
looks like from outside, and the invariant of the machine. -/

namespace Sys2Proof.Machine

/-- `s` once a transaction on `req` has been answered by the frame `rsp`, with `store` left behind and `rest` still to come:
the latches and the request are discarded (rule R38), the run shows one more pair (rules R147, R289), and nothing else has
changed. -/
def State.ended (s : State) (req rsp : List Byte) (store : Store) (rest : List RunStep) : State :=
  { params := s.params
    store := store
    latches := Latches.clear
    req := []
    rsp := rsp
    schedule := rest
    exchanges := s.exchanges ++ [⟨req, rsp⟩]
    hostAnswers := s.hostAnswers }

/-- `k` steps of a run, stopping at a fault or refusal (rule R289). -/
def run : Nat → State → Host.Outcome State Fault Refusal
  | 0, s => .next s
  | k + 1, s =>
    match step s with
    | .next t => run k t
    | .fault r => .fault r
    | .refused r => .refused r

/-- The length field of a frame, bytes 4 and 5 (rule R91). -/
def lenField (f : List Byte) : Nat := (f.getD 4 0).toNat * 256 + (f.getD 5 0).toNat

/-- The function byte of a frame, byte 7 (rule R91). -/
def functionByte (f : List Byte) : Byte := f.getD 7 0

/-- A response is an exception response when its function byte has bit 7 set (rule R258). -/
def isException (rsp : List Byte) : Bool := (functionByte rsp).getLsbD 7

/-- A response frame as rules R105 and R146 describe it: the length field counts the bytes after it, and the frame has 9 to
264 bytes. -/
def wellFramed (rsp : List Byte) : Bool :=
  decide (9 ≤ rsp.length) && decide (rsp.length ≤ 264) && decide (rsp.length = 6 + lenField rsp)

/-- The invariant of the machine between steps: the store is canonical, with every listed index inside the arrays of `N`
elements (rules R30, R41, R69), no transaction is in progress (rules R38, R44), and every response emitted is a well-formed
frame (rules R105, R146, R147). -/
def State.Inv (s : State) : Prop :=
  s.store.wf s.params.size = true ∧ s.latches = Latches.clear ∧ s.req = [] ∧
  (s.rsp = [] ∨ wellFramed s.rsp = true) ∧ ∀ e ∈ s.exchanges, wellFramed e.rsp = true

/-- Whether an instruction, where it succeeds, writes holding register `a` (rules R191, R193). -/
def Instr.namesHolding (a : Nat) : Instr → Bool
  | .wrreg (.fields addr _) => addr.toNat == a
  | .wrregs (.fields start qty _ _) => decide (start.toNat ≤ a) && decide (a < start.toNat + qty.toNat)
  | _ => false

/-- Whether an instruction, where it succeeds, writes coil `a` (rules R190, R192). -/
def Instr.namesCoil (a : Nat) : Instr → Bool
  | .wrcoil (.fields addr _) => addr.toNat == a
  | .wrcoils (.fields start qty _ _) => decide (start.toNat ≤ a) && decide (a < start.toNat + qty.toNat)
  | _ => false

/-- The value an instruction puts into holding register `a` of a block of size `n`, where it succeeds and writes it: 0x06
its value (rule R191), 0x10 the big-endian pair of its data (rule R193). -/
def Instr.putsHolding (n a : Nat) : Instr → Option U16
  | .wrreg (.fields addr value) => if addr.toNat = a ∧ a < n then some value else none
  | .wrregs (.fields start qty bc data) =>
    if bc.toNat = 2 * qty.toNat ∧ data.length = 2 * qty.toNat ∧ start.toNat + qty.toNat ≤ n ∧
        start.toNat ≤ a ∧ a < start.toNat + qty.toNat then
      some (be16 (data.getD (2 * (a - start.toNat)) 0) (data.getD (2 * (a - start.toNat) + 1) 0))
    else none
  | _ => none

/-- The bit an instruction puts into coil `a` of a block of size `n`, where it succeeds and writes it: 0x05 whether its
value is 0xFF00 (rules R98, R190), 0x0F the bit of its data, LSB-first (rules R144, R192). -/
def Instr.putsCoil (n a : Nat) : Instr → Option Bool
  | .wrcoil (.fields addr value) => if addr.toNat = a ∧ a < n then some (value == 0xFF00) else none
  | .wrcoils (.fields start qty bc data) =>
    if bc.toNat = data.length ∧ qty.toNat ≤ 8 * data.length ∧ start.toNat + qty.toNat ≤ n ∧
        start.toNat ≤ a ∧ a < start.toNat + qty.toNat then
      some ((data.getD ((a - start.toNat) / 8) 0).getLsbD ((a - start.toNat) % 8))
    else none
  | _ => none

/-- `s` once its transaction has ended in the response PDU `pdu`, under the header its latches hold. -/
def State.answered (s : State) (pdu : List Byte) (store : Store) : State :=
  s.ended s.req (frame s.latches.tid s.latches.pid s.latches.unit pdu) store s.schedule

/-- A read whose reply carries a byte count: it ends in the exception PDU of function code `f` with code 0x04 exactly when
`qty` is over `limit` (rule R150). -/
def FailsOver (limit : Nat) (f : Byte) (i : Instr) (qty : Nat) (s : State) : Prop :=
  ∃ t, exec i s = .next t ∧ (isException t.rsp = true ↔ limit < qty) ∧
    (limit < qty → t = s.answered [f ||| 0x80, 0x04] s.store)

/-- Whether a step of a run names holding register `a` as one it writes. -/
def RunStep.namesHolding (a : Nat) : RunStep → Bool
  | .reset => true
  | .transaction req =>
    match decodeFrame req with
    | .ok (_, i) => Instr.namesHolding a i
    | .error _ => false
  | .hostWriteReg .hr i _ => i == a
  | _ => false

/-- Whether a step of a run names coil `a` as one it writes. -/
def RunStep.namesCoil (a : Nat) : RunStep → Bool
  | .reset => true
  | .transaction req =>
    match decodeFrame req with
    | .ok (_, i) => Instr.namesCoil a i
    | .error _ => false
  | .hostWriteBit .co i _ => i == a
  | _ => false

end Sys2Proof.Machine
end

