-- ==== Sys2Proof/Certificates/Slice0/Obligations.lean ====
section
/-! DEFINITION. The statements about the machine, from the numbered rules of the spec. -/

open Sys2Proof Sys2Proof.Machine

/-! ### Encoding -/

/-- Rules R91, R93 to R96, R100, R101: the decoder reads back every well-formed instruction from its PDU. -/
def Obligations.DecodeInvertsEncode : Prop :=
  ∀ i : Instr, i.WellFormed = true → decode (encode i) = .ok i

/-- Rules R93 to R97: no byte of a PDU is dropped; the instruction decoded from it encodes to the same bytes. -/
def Obligations.EncodeInvertsDecode : Prop :=
  ∀ (pdu : List Byte) (i : Instr), decode pdu = .ok i → encode i = pdu

/-- Rules R91, R104: a PDU that a frame can carry decodes to a well-formed instruction. -/
def Obligations.DecodedInstructionIsWellFormed : Prop :=
  ∀ (pdu : List Byte) (i : Instr), 1 + pdu.length ≤ 65535 → decode pdu = .ok i → i.WellFormed = true

/-- Rules R91, R106: the parser reads back the header and the instruction of every assembled frame. -/
def Obligations.FrameRoundTrip : Prop :=
  ∀ (h : Header) (i : Instr), i.WellFormed = true → decodeFrame (encodeFrame h i) = .ok (h, i)

/-- Rule R92, which the spec derives: an accepted frame has `|Req| = 6 + len` and at least 8 bytes, so `len >= 2`. -/
def Obligations.AcceptedFrameObeysFrameInvariant : Prop :=
  ∀ (req : List Byte) (h : Header) (i : Instr), decodeFrame req = .ok (h, i) →
    req.length = 6 + lenField req ∧ 8 ≤ req.length ∧ 2 ≤ lenField req

/-- Rules R100 to R102: each of the nine codes selects its own constructor, whatever the payload; every other code is the
catch-all with its payload unread; and 247 codes are of that kind. -/
def Obligations.FunctionCodeAloneSelects : Prop :=
  (∀ P : List Byte,
    decodePayload 0x01 P = .rdcoils (decodeRange P) ∧ decodePayload 0x02 P = .rddisc (decodeRange P) ∧
    decodePayload 0x03 P = .rdhold (decodeRange P) ∧ decodePayload 0x04 P = .rdinput (decodeRange P) ∧
    decodePayload 0x05 P = .wrcoil (decodeSingle P) ∧ decodePayload 0x06 P = .wrreg (decodeSingle P) ∧
    decodePayload 0x0F P = .wrcoils (decodeMulti P) ∧ decodePayload 0x10 P = .wrregs (decodeMulti P) ∧
    decodePayload 0x11 P = .reportid P) ∧
  (∀ (fc : Byte) (P : List Byte), fc ∉ supportedCodes → decodePayload fc P = .illegal fc P) ∧
  ((List.range 256).filter fun n => !supportedCodes.contains (BitVec.ofNat 8 n)).length = 247

/-- Words written out from rules R93 to R96 and R101 decode to the instructions they stand for (a check of fixed words). -/
def Obligations.WrittenOutWordsDecode : Prop :=
  decode [0x01, 0x00, 0x13, 0x01, 0x02] = .ok (.rdcoils (.fields 0x0013 0x0102)) ∧
  decode [0x06, 0x00, 0x01, 0xAB, 0xCD] = .ok (.wrreg (.fields 0x0001 0xABCD)) ∧
  decode [0x0F, 0x00, 0x03, 0x00, 0x0A, 0x02, 0xCD, 0x01] = .ok (.wrcoils (.fields 0x0003 0x000A 0x02 [0xCD, 0x01])) ∧
  decode [0x11] = .ok (.reportid []) ∧
  decode [0x2B, 0x0E] = .ok (.illegal 0x2B [0x0E])

/-! ### The parser and the step -/

/-- Parser step 1: a request under 7 bytes gets the response `00 00 00 00 00 03 00 80 04`, and no element changes. That
nothing is echoed is the spec's own decision D5 (log entry 16). -/
def Obligations.TooShortRequestAnswered : Prop :=
  ∀ (s : State) (req : List Byte) (rest : List RunStep), s.schedule = .transaction req :: rest → req.length < 7 →
    step s = .next (s.ended req [0x00, 0x00, 0x00, 0x00, 0x00, 0x03, 0x00, 0x80, 0x04] s.store rest)

/-- Parser step 3: a request whose length is not `6 + len`, compared exactly, gets `80 04` with its tid and pid echoed and
unit 0. The echo is the spec's own decision D5, the exact comparison D12 (log entry 16). -/
def Obligations.LengthMismatchAnswered : Prop :=
  ∀ (s : State) (rest : List RunStep) (t1 t0 p1 p0 l1 l0 u : Byte) (pdu : List Byte),
    s.schedule = .transaction (t1 :: t0 :: p1 :: p0 :: l1 :: l0 :: u :: pdu) :: rest →
    7 + pdu.length ≠ 6 + (l1.toNat * 256 + l0.toNat) →
    step s = .next (s.ended (t1 :: t0 :: p1 :: p0 :: l1 :: l0 :: u :: pdu)
      [t1, t0, p1, p0, 0x00, 0x03, 0x00, 0x80, 0x04] s.store rest)

/-- Rule R135, which the spec derives: a frame of 7 bytes with `len = 1` gets `80 04` with tid, pid and unit echoed, and
only such a frame fails so. -/
def Obligations.MissingFunctionCodeAnswered : Prop :=
  (∀ (s : State) (rest : List RunStep) (t1 t0 p1 p0 u : Byte),
    s.schedule = .transaction [t1, t0, p1, p0, 0x00, 0x01, u] :: rest →
    step s = .next (s.ended [t1, t0, p1, p0, 0x00, 0x01, u] [t1, t0, p1, p0, 0x00, 0x03, u, 0x80, 0x04] s.store rest)) ∧
  (∀ req : List Byte, decodeFrame req = .error .missingFunctionCode ↔ req.length = 7 ∧ lenField req = 1)

/-- Rule R243: a request the parser does not accept, for whichever failure, gets the exception byte `0x00 | 0x80 = 0x80`
with the fallback code, and no element changes. -/
def Obligations.FrameLevelFailuresAnswerFunctionZero : Prop :=
  ∀ (s : State) (req : List Byte) (rest : List RunStep) (k : Failure),
    s.schedule = .transaction req :: rest → decodeFrame req = .error k →
    ∃ (t p : U16) (u : Byte), step s = .next (s.ended req (frame t p u [0x80, 0x04]) s.store rest)

/-- Rules R130, R132, R134, R135, R140: when the request presented next decodes to an instruction, the step is that
instruction's meaning on the state with the request in its buffer, the response empty, and every latch loaded. -/
def Obligations.StepRunsDecodedInstruction : Prop :=
  ∀ (s : State) (req : List Byte) (rest : List RunStep) (h : Header) (i : Instr),
    s.schedule = .transaction req :: rest → decodeFrame req = .ok (h, i) →
    step s = exec i { s with
      schedule := rest
      req := req
      rsp := []
      latches := ⟨h.tid, h.pid, BitVec.ofNat 16 (1 + (encode i).length), h.unit, i.functionCode, encodePayload i⟩ }

/-- Rules R146, R244, R245: the response to an accepted frame carries its tid, pid and unit, whatever they are. That no
pid or unit is refused is the spec's own decision (D6, D7, log entry 16). -/
def Obligations.AcceptedHeaderIsEchoed : Prop :=
  ∀ (s : State) (req : List Byte) (rest : List RunStep) (h : Header) (i : Instr),
    s.schedule = .transaction req :: rest → decodeFrame req = .ok (h, i) →
    ∃ (pdu : List Byte) (st : Store), step s = .next (s.ended req (frame h.tid h.pid h.unit pdu) st rest)

/-- Rules R244, R245, R258: when a request in an accepted frame ends in an exception response, that response names its own
function code under its own header; the code is 0x01 exactly for the unsupported function codes, and else 0x02 or 0x04. -/
def Obligations.AcceptedFailureNamesItsFunctionCode : Prop :=
  ∀ (s t : State) (req : List Byte) (rest : List RunStep) (h : Header) (i : Instr),
    s.schedule = .transaction req :: rest → decodeFrame req = .ok (h, i) → step s = .next t → isException t.rsp = true →
    ∃ code ∈ [(0x01 : Byte), 0x02, 0x04], t.rsp = frame h.tid h.pid h.unit [i.functionCode ||| 0x80, code] ∧
      (code = 0x01 ↔ i.functionCode ∉ supportedCodes)

/-- Two requests for the same instruction under different headers leave the same store, and the same PDU
but for the slave id byte of Report Slave ID. That no header is treated specially is the spec's own decision (D6, D7, D15,
log entry 16). -/
def Obligations.HeaderDoesNotChangeTreatment : Prop :=
  ∀ (s : State) (rest : List RunStep) (h h' : Header) (i : Instr), i.WellFormed = true →
    ∃ (pdu pdu' : List Byte) (st : Store),
      step { s with schedule := .transaction (encodeFrame h i) :: rest } =
        .next (s.ended (encodeFrame h i) (frame h.tid h.pid h.unit pdu) st rest) ∧
      step { s with schedule := .transaction (encodeFrame h' i) :: rest } =
        .next (s.ended (encodeFrame h' i) (frame h'.tid h'.pid h'.unit pdu') st rest) ∧
      ((pdu = pdu' ∧ i.functionCode ≠ 0x11) ∨
        (i.functionCode = 0x11 ∧ pdu.set 2 0 = pdu'.set 2 0 ∧ pdu.getD 2 0 = h.unit ∧ pdu'.getD 2 0 = h'.unit))

/-! ### What each function code does -/

/-- Rules R170, R143, R174: Read Coils in range, with at most 2040 coils, answers them packed LSB-first, padded with 0. -/
def Obligations.ReadCoilsAnswersPackedCoils : Prop :=
  ∀ (s : State) (start qty : U16), start.toNat + qty.toNat ≤ s.params.size → qty.toNat ≤ 2040 →
    ∃ data : List Byte, data.length = (qty.toNat + 7) / 8 ∧
      (∀ j, j < 8 * data.length →
        (data.getD (j / 8) 0).getLsbD (j % 8) = (decide (j < qty.toNat) && s.store.bit .co (start.toNat + j))) ∧
      exec (.rdcoils (.fields start qty)) s = .next (s.answered ([0x01, BitVec.ofNat 8 data.length] ++ data) s.store)

/-- Rules R171, R143, R174: the same of Read Discrete Inputs. -/
def Obligations.ReadDiscreteInputsAnswersPackedInputs : Prop :=
  ∀ (s : State) (start qty : U16), start.toNat + qty.toNat ≤ s.params.size → qty.toNat ≤ 2040 →
    ∃ data : List Byte, data.length = (qty.toNat + 7) / 8 ∧
      (∀ j, j < 8 * data.length →
        (data.getD (j / 8) 0).getLsbD (j % 8) = (decide (j < qty.toNat) && s.store.bit .di (start.toNat + j))) ∧
      exec (.rddisc (.fields start qty)) s = .next (s.answered ([0x02, BitVec.ofNat 8 data.length] ++ data) s.store)

/-- Rules R172, R60, R174: Read Holding Registers in range, with at most 127 registers, answers each big-endian in
ascending order. -/
def Obligations.ReadHoldingRegistersAnswersBigEndian : Prop :=
  ∀ (s : State) (start qty : U16), start.toNat + qty.toNat ≤ s.params.size → qty.toNat ≤ 127 →
    ∃ data : List Byte, data.length = qty.toNat * 2 ∧
      (∀ j, j < qty.toNat →
        (data.getD (2 * j) 0).toNat * 256 + (data.getD (2 * j + 1) 0).toNat = (s.store.reg .hr (start.toNat + j)).toNat) ∧
      exec (.rdhold (.fields start qty)) s = .next (s.answered ([0x03, BitVec.ofNat 8 data.length] ++ data) s.store)

/-- Rules R173, R60, R174: the same of Read Input Registers. -/
def Obligations.ReadInputRegistersAnswersBigEndian : Prop :=
  ∀ (s : State) (start qty : U16), start.toNat + qty.toNat ≤ s.params.size → qty.toNat ≤ 127 →
    ∃ data : List Byte, data.length = qty.toNat * 2 ∧
      (∀ j, j < qty.toNat →
        (data.getD (2 * j) 0).toNat * 256 + (data.getD (2 * j + 1) 0).toNat = (s.store.reg .ir (start.toNat + j)).toNat) ∧
      exec (.rdinput (.fields start qty)) s = .next (s.answered ([0x04, BitVec.ofNat 8 data.length] ++ data) s.store)

/-- Rules R190, R98: Write Single Coil below `N` makes coil `addr` 1 for the value 0xFF00 and 0 for every other value,
changes no other element of any space, and echoes its payload. -/
def Obligations.WriteSingleCoilWritesOneCoil : Prop :=
  ∀ (s : State) (addr value : U16), s.store.wf s.params.size = true → addr.toNat < s.params.size →
    ∃ st : Store,
      (∀ sp k, st.bit sp k = if sp = .co ∧ k = addr.toNat then value == 0xFF00 else s.store.bit sp k) ∧
      (∀ sp k, st.reg sp k = s.store.reg sp k) ∧
      exec (.wrcoil (.fields addr value)) s = .next (s.answered ([0x05] ++ enc16 addr ++ enc16 value) st)

/-- Rule R191: Write Single Register below `N` stores the value in holding register `addr`, changes no other element of any
space, and echoes its payload. -/
def Obligations.WriteSingleRegisterWritesOneRegister : Prop :=
  ∀ (s : State) (addr value : U16), s.store.wf s.params.size = true → addr.toNat < s.params.size →
    ∃ st : Store,
      (∀ sp k, st.reg sp k = if sp = .hr ∧ k = addr.toNat then value else s.store.reg sp k) ∧
      (∀ sp k, st.bit sp k = s.store.bit sp k) ∧
      exec (.wrreg (.fields addr value)) s = .next (s.answered ([0x06] ++ enc16 addr ++ enc16 value) st)

/-- Rules R192, R144: Write Multiple Coils, well shaped and in range, writes coil `start + j` from bit `j mod 8` of data
byte `j div 8` for `j < qty`, changes no other element of any space, and answers start and qty. -/
def Obligations.WriteMultipleCoilsWritesUnpackedBits : Prop :=
  ∀ (s : State) (start qty : U16) (bc : Byte) (data : List Byte), s.store.wf s.params.size = true →
    bc.toNat = data.length → qty.toNat ≤ 8 * bc.toNat → start.toNat + qty.toNat ≤ s.params.size →
    ∃ st : Store,
      (∀ sp k, st.bit sp k =
        if sp = .co ∧ start.toNat ≤ k ∧ k < start.toNat + qty.toNat then
          (data.getD ((k - start.toNat) / 8) 0).getLsbD ((k - start.toNat) % 8)
        else s.store.bit sp k) ∧
      (∀ sp k, st.reg sp k = s.store.reg sp k) ∧
      exec (.wrcoils (.fields start qty bc data)) s = .next (s.answered ([0x0F] ++ enc16 start ++ enc16 qty) st)

/-- Rules R193, R60: Write Multiple Registers, well shaped and in range, writes holding register `start + j` from the
big-endian pair `j` of its data for `j < qty`, changes no other element of any space, and answers start and qty. -/
def Obligations.WriteMultipleRegistersWritesPairs : Prop :=
  ∀ (s : State) (start qty : U16) (bc : Byte) (data : List Byte), s.store.wf s.params.size = true →
    bc.toNat = 2 * qty.toNat → bc.toNat = data.length → start.toNat + qty.toNat ≤ s.params.size →
    ∃ st : Store,
      (∀ sp k, (st.reg sp k).toNat =
        if sp = .hr ∧ start.toNat ≤ k ∧ k < start.toNat + qty.toNat then
          (data.getD (2 * (k - start.toNat)) 0).toNat * 256 + (data.getD (2 * (k - start.toNat) + 1) 0).toNat
        else (s.store.reg sp k).toNat) ∧
      (∀ sp k, st.bit sp k = s.store.bit sp k) ∧
      exec (.wrregs (.fields start qty bc data)) s = .next (s.answered ([0x10] ++ enc16 start ++ enc16 qty) st)

/-- Report Slave ID answers the byte count, the request's unit, 0xFF and the identification bytes, whatever its
payload, and touches no element. That the payload is ignored, and the bound on the identification bytes, are the spec's own
decisions (D13, D3, log entry 16). -/
def Obligations.ReportSlaveIdAnswersIdentity : Prop :=
  ∀ (s : State) (P : List Byte),
    exec (.reportid P) s = .next (s.answered
      ([0x11, BitVec.ofNat 8 (2 + s.params.identBytes.length), s.latches.unit, 0xFF] ++ s.params.identBytes) s.store) ∧
    2 + s.params.identBytes.length ≤ 255

/-- Rules R221, R242: an unsupported function code answers the Illegal Function exception, whatever its payload, and touches
no element. -/
def Obligations.UnsupportedCodeAnswersIllegalFunction : Prop :=
  ∀ (s : State) (fc : Byte) (P : List Byte),
    exec (.illegal fc P) s = .next (s.answered [s.latches.fc ||| 0x80, 0x01] s.store)

/-! ### Exceptions -/

/-- Rule R221: a whole request with an unsupported code gets `[fc | 0x80, 0x01]` under its own header, its payload not
examined. -/
def Obligations.UnsupportedRequestGetsIllegalFunction : Prop :=
  ∀ (s : State) (rest : List RunStep) (h : Header) (fc : Byte) (P : List Byte), fc ∉ supportedCodes →
    1 + (fc :: P).length ≤ 65535 → s.schedule = .transaction (frameOfPdu h (fc :: P)) :: rest →
    step s = .next (s.ended (frameOfPdu h (fc :: P)) (frame h.tid h.pid h.unit [fc ||| 0x80, 0x01]) s.store rest)

/-- Rule R175: every read past the end of its space, each of the four, gives `[fc | 0x80, 0x02]`. -/
def Obligations.OutOfRangeReadsGetIllegalDataAddress : Prop :=
  ∀ (s : State) (start qty : U16), s.params.size < start.toNat + qty.toNat →
    (s.latches.fc = 0x01 → exec (.rdcoils (.fields start qty)) s = .next (s.answered [0x81, 0x02] s.store)) ∧
    (s.latches.fc = 0x02 → exec (.rddisc (.fields start qty)) s = .next (s.answered [0x82, 0x02] s.store)) ∧
    (s.latches.fc = 0x03 → exec (.rdhold (.fields start qty)) s = .next (s.answered [0x83, 0x02] s.store)) ∧
    (s.latches.fc = 0x04 → exec (.rdinput (.fields start qty)) s = .next (s.answered [0x84, 0x02] s.store))

/-- Rules R190, R191, R193: every well-shaped write past the end gives `[fc | 0x80, 0x02]` and writes nothing. That
the sum is exact is the spec's own decision D12 (log entry 16). -/
def Obligations.OutOfRangeWritesGetIllegalDataAddress : Prop :=
  ∀ (s : State),
    (∀ addr value : U16, s.params.size ≤ addr.toNat →
      (s.latches.fc = 0x05 → exec (.wrcoil (.fields addr value)) s = .next (s.answered [0x85, 0x02] s.store)) ∧
      (s.latches.fc = 0x06 → exec (.wrreg (.fields addr value)) s = .next (s.answered [0x86, 0x02] s.store))) ∧
    (∀ (start qty : U16) (bc : Byte) (data : List Byte), s.params.size < start.toNat + qty.toNat → bc.toNat = data.length →
      (s.latches.fc = 0x0F → qty.toNat ≤ 8 * bc.toNat →
        exec (.wrcoils (.fields start qty bc data)) s = .next (s.answered [0x8F, 0x02] s.store)) ∧
      (s.latches.fc = 0x10 → bc.toNat = 2 * qty.toNat →
        exec (.wrregs (.fields start qty bc data)) s = .next (s.answered [0x90, 0x02] s.store)))

/-- Rules R193, R245: every shape failure, of each of the eight store codes, gives `[fc | 0x80,
0x04]`, whatever the range, and writes nothing. That a 4-byte payload is exactly 4 bytes, and that too few coil bits are a
shape failure, are the spec's own decisions (D9, D10, log entry 16). -/
def Obligations.MalformedPayloadsGetFallbackCode : Prop :=
  ∀ (s : State) (raw : List Byte) (start qty : U16) (bc : Byte) (data : List Byte),
    (s.latches.fc = 0x01 → exec (.rdcoils (.badLength raw)) s = .next (s.answered [0x81, 0x04] s.store)) ∧
    (s.latches.fc = 0x02 → exec (.rddisc (.badLength raw)) s = .next (s.answered [0x82, 0x04] s.store)) ∧
    (s.latches.fc = 0x03 → exec (.rdhold (.badLength raw)) s = .next (s.answered [0x83, 0x04] s.store)) ∧
    (s.latches.fc = 0x04 → exec (.rdinput (.badLength raw)) s = .next (s.answered [0x84, 0x04] s.store)) ∧
    (s.latches.fc = 0x05 → exec (.wrcoil (.badLength raw)) s = .next (s.answered [0x85, 0x04] s.store)) ∧
    (s.latches.fc = 0x06 → exec (.wrreg (.badLength raw)) s = .next (s.answered [0x86, 0x04] s.store)) ∧
    (s.latches.fc = 0x0F → exec (.wrcoils (.tooShort raw)) s = .next (s.answered [0x8F, 0x04] s.store)) ∧
    (s.latches.fc = 0x0F → (bc.toNat ≠ data.length ∨ 8 * bc.toNat < qty.toNat) →
      exec (.wrcoils (.fields start qty bc data)) s = .next (s.answered [0x8F, 0x04] s.store)) ∧
    (s.latches.fc = 0x10 → exec (.wrregs (.tooShort raw)) s = .next (s.answered [0x90, 0x04] s.store)) ∧
    (s.latches.fc = 0x10 → (bc.toNat ≠ 2 * qty.toNat ∨ bc.toNat ≠ data.length) →
      exec (.wrregs (.fields start qty bc data)) s = .next (s.answered [0x90, 0x04] s.store))

/-- A read in range fails with the fallback code exactly when its data exceed 255 bytes, that is over 2040 bits
or over 127 registers. That it fails, and is not cut short, is the spec's own decision D11 (log entry 16). -/
def Obligations.ReadFailsExactlyOverByteCount : Prop :=
  ∀ (s : State) (start qty : U16), start.toNat + qty.toNat ≤ s.params.size →
    (s.latches.fc = 0x01 → FailsOver 2040 0x01 (.rdcoils (.fields start qty)) qty.toNat s) ∧
    (s.latches.fc = 0x02 → FailsOver 2040 0x02 (.rddisc (.fields start qty)) qty.toNat s) ∧
    (s.latches.fc = 0x03 → FailsOver 127 0x03 (.rdhold (.fields start qty)) qty.toNat s) ∧
    (s.latches.fc = 0x04 → FailsOver 127 0x04 (.rdinput (.fields start qty)) qty.toNat s)

/-- Rule R242: the exception PDU is `[f | 0x80, code(K)]`, with an OR that adds 0x80 below 0x80 and changes nothing from
there up; `f` is the request's function code when the parser reached it, and 0 otherwise. -/
def Obligations.ExceptionEncoderOrsAndCodes : Prop :=
  (∀ (f : Byte) (k : Failure), encodeException f k = [f ||| 0x80, exceptionCode k]) ∧
  exceptionCode .illegalFunction = 0x01 ∧ exceptionCode .illegalDataAddress = 0x02 ∧
  (∀ k : Failure, k ≠ .illegalFunction → k ≠ .illegalDataAddress → exceptionCode k = 0x04) ∧
  (∀ f : Byte, (f < 0x80 → f ||| 0x80 = f + 0x80) ∧ (0x80 ≤ f → f ||| 0x80 = f)) ∧
  (∀ (s t : State) (req : List Byte) (rest : List RunStep), s.schedule = .transaction req :: rest → step s = .next t →
    isException t.rsp = true → ∃ (tid pid : U16) (u : Byte) (k : Failure), t.rsp = frame tid pid u
      (encodeException (match decodeFrame req with | .ok (_, i) => i.functionCode | .error _ => 0) k))

/-- Rule R241: the exception code of every exception response is 0x01, 0x02 or 0x04, and each of the three is emitted. -/
def Obligations.ExactlyThreeExceptionCodes : Prop :=
  (∀ (s t : State) (req : List Byte) (rest : List RunStep), s.schedule = .transaction req :: rest → step s = .next t →
    isException t.rsp = true → t.rsp.getD 8 0 ∈ [(0x01 : Byte), 0x02, 0x04]) ∧
  (∀ code ∈ [(0x01 : Byte), 0x02, 0x04], ∃ (s t : State) (req : List Byte) (rest : List RunStep),
    s.schedule = .transaction req :: rest ∧ step s = .next t ∧ isException t.rsp = true ∧ t.rsp.getD 8 0 = code)

/-! ### The codec and the framer -/

/-- Rule R98: 0xFF00 decodes to 1 and every other value to 0. -/
def Obligations.CoilValueDecodesToBit : Prop :=
  ∀ value : U16, (value = 0xFF00 → coilBit value = true) ∧ (value ≠ 0xFF00 → coilBit value = false)

/-- Rules R143, R62: `pack` gives `ceil_div(n, 8)` bytes, bit `i` at bit `i mod 8` of byte `i div 8`, and 0 in every other
bit. -/
def Obligations.PackPlacesBitsLsbFirst : Prop :=
  ∀ bits : List Bool, (pack bits).length = (bits.length + 7) / 8 ∧
    (∀ i, i < bits.length → ((pack bits).getD (i / 8) 0).getLsbD (i % 8) = bits.getD i false) ∧
    (∀ i, bits.length ≤ i → i < 8 * (pack bits).length → ((pack bits).getD (i / 8) 0).getLsbD (i % 8) = false)

/-- Rule R145: the three laws of the codec (the third the spec derives). -/
def Obligations.CodecLaws : Prop :=
  (∀ bits : List Bool, unpack (pack bits) bits.length = bits) ∧
  (∀ bits : List Bool, (pack bits).length = ceilDiv bits.length 8) ∧
  (∀ bytes : List Byte, pack (unpack bytes (8 * bytes.length)) = bytes)

/-- Rule R146: the layout of a response frame, whose length field counts the bytes after it, and whose protocol id is the
request's. -/
def Obligations.ResponseFrameLayout : Prop :=
  (∀ (t p : U16) (u : Byte) (r : List Byte),
    frame t p u r = enc16 t ++ enc16 p ++ enc16 (BitVec.ofNat 16 (1 + r.length)) ++ [u] ++ r ∧
    (r.length ≤ 65534 → (frame t p u r).length = 6 + lenField (frame t p u r))) ∧
  (∀ (s : State) (req : List Byte) (rest : List RunStep) (h : Header) (i : Instr),
    s.schedule = .transaction req :: rest → decodeFrame req = .ok (h, i) →
    ∃ (tid : U16) (u : Byte) (pdu : List Byte) (st : Store), step s = .next (s.ended req (frame tid h.pid u pdu) st rest))

/-! ### The whole machine -/

/-- Every transaction, on any request and from any state, answers a next state with exactly one response (rule R147), a
well-formed frame of 9 to 264 bytes; an exception frame has 9 bytes, and any other begins its PDU with one of the nine
codes. All but the one response the spec derives (rules R105, R148, R258); the bound of 264 bytes rests on its own decisions
D3 and D11 (log entry 16). -/
def Obligations.EveryRequestGetsOneResponse : Prop :=
  ∀ (s : State) (req : List Byte) (rest : List RunStep), s.schedule = .transaction req :: rest →
    ∃ (rsp : List Byte) (st : Store), step s = .next (s.ended req rsp st rest) ∧ wellFramed rsp = true ∧
      (isException rsp = true → rsp.length = 9) ∧ (isException rsp = false → functionByte rsp ∈ supportedCodes)

/-- Rules R30, R38, R41, R69, R105, R146: every step of a run keeps the invariant of the machine. -/
def Obligations.EveryStepKeepsInvariant : Prop :=
  ∀ s t : State, s.Inv → step s = .next t → t.Inv

/-- The invariant holds after reset; that the store is zero there is the spec's own decision D4 (log entry 6). -/
def Obligations.ResetMeetsInvariant : Prop := State.reset.Inv

/-- After reset every element of the four arrays is 0. That is the spec's own decision D4 (log entry 6). -/
def Obligations.ResetStoreIsAllZero : Prop :=
  ∀ i, i < State.reset.params.size →
    State.reset.store.bit .co i = false ∧ State.reset.store.bit .di i = false ∧
    State.reset.store.reg .hr i = 0x0000 ∧ State.reset.store.reg .ir i = 0x0000

/-- Rule R195, which the spec derives: a transaction that ends in an exception response leaves the store as it was. -/
def Obligations.FailedTransactionsChangeNothing : Prop :=
  ∀ (s t : State) (req : List Byte) (rest : List RunStep), s.schedule = .transaction req :: rest → step s = .next t →
    isException t.rsp = true → t.store = s.store

/-- Rules R32, R34, R77: no transaction changes a discrete input or an input register. -/
def Obligations.NoRequestWritesReadOnlySpaces : Prop :=
  ∀ (s t : State) (req : List Byte) (rest : List RunStep), s.schedule = .transaction req :: rest → step s = .next t →
    t.store.di = s.store.di ∧ t.store.ir = s.store.ir

/-- Rules R31, R33, R42, R66, R67: a step of a run changes only the holding registers and coils it names as written. -/
def Obligations.OnlyNamedElementsChange : Prop :=
  ∀ (s t : State) (x : RunStep) (rest : List RunStep) (a : Nat), s.store.wf s.params.size = true →
    s.schedule = x :: rest → step s = .next t →
    (x.namesHolding a = false → t.store.reg .hr a = s.store.reg .hr a) ∧
    (x.namesCoil a = false → t.store.bit .co a = s.store.bit .co a)

/-- Rules R37, R44: no step changes `N` or `IDENT_BYTES`. -/
def Obligations.ParametersNeverChange : Prop :=
  ∀ s t : State, step s = .next t → t.params = s.params

/-- Rule R149, which the spec derives: the response and the store after a transaction depend on the request, the store and
the parameters alone. -/
def Obligations.TransactionsAreDeterministic : Prop :=
  ∀ (s s' t t' : State) (req : List Byte) (rest rest' : List RunStep), s.params = s'.params → s.store = s'.store →
    s.schedule = .transaction req :: rest → s'.schedule = .transaction req :: rest' →
    step s = .next t → step s' = .next t' → t.rsp = t'.rsp ∧ t.store = t'.store

/-- Rule R194, which the spec derives: after a successful write of `v` to holding register `a` by 0x06 or 0x10, and any
steps that do not name that register, Read Holding Registers of it answers the two bytes of `v`. -/
def Obligations.HoldingWriteThenReadReturnsValue : Prop :=
  ∀ (s : State) (reqW : List Byte) (mid rest : List RunStep) (hw hr : Header) (w : Instr) (a v : U16),
    s.store.wf s.params.size = true → decodeFrame reqW = .ok (hw, w) →
    Instr.putsHolding s.params.size a.toNat w = some v → (∀ m ∈ mid, m.namesHolding a.toNat = false) →
    s.schedule = .transaction reqW :: (mid ++ .transaction (encodeFrame hr (.rdhold (.fields a 1))) :: rest) →
    ∃ u : State, run (mid.length + 2) s = .next u ∧
      u.rsp = frame hr.tid hr.pid hr.unit ([0x03, 0x02] ++ enc16 v)

/-- Rule R194, which the spec derives: after a successful write of bit `b` to coil `a` by 0x05 or 0x0F, and any steps that
do not name that coil, Read Coils of it answers `[0x01]` when it was set and `[0x00]` when it was cleared. -/
def Obligations.CoilWriteThenReadReturnsBit : Prop :=
  ∀ (s : State) (reqW : List Byte) (mid rest : List RunStep) (hw hr : Header) (w : Instr) (a : U16) (b : Bool),
    s.store.wf s.params.size = true → decodeFrame reqW = .ok (hw, w) →
    Instr.putsCoil s.params.size a.toNat w = some b → (∀ m ∈ mid, m.namesCoil a.toNat = false) →
    s.schedule = .transaction reqW :: (mid ++ .transaction (encodeFrame hr (.rdcoils (.fields a 1))) :: rest) →
    ∃ u : State, run (mid.length + 2) s = .next u ∧
      u.rsp = frame hr.tid hr.pid hr.unit [0x01, 0x01, if b then 0x01 else 0x00]

/-- Rule R68: a multiple write changes every element it names, each to its own data, or none at all. -/
def Obligations.MultipleWritesAreAllOrNothing : Prop :=
  ∀ (s t : State) (start qty : U16) (bc : Byte) (data : List Byte), s.store.wf s.params.size = true →
    (exec (.wrcoils (.fields start qty bc data)) s = .next t → t.store = s.store ∨
      ∀ j, j < qty.toNat → t.store.bit .co (start.toNat + j) = (data.getD (j / 8) 0).getLsbD (j % 8)) ∧
    (exec (.wrregs (.fields start qty bc data)) s = .next t → t.store = s.store ∨
      ∀ j, j < qty.toNat → t.store.reg .hr (start.toNat + j) = be16 (data.getD (2 * j) 0) (data.getD (2 * j + 1) 0))

/-! ### The host, reset and idling -/

/-- A host read of an element inside its space answers it and changes no element; a host write changes the element it
names and no other, in any of the four spaces. Element-wise host access is the spec's own decision D14; that the answers
are kept in a list is the model's choice (log entry 3). -/
def Obligations.HostAccessTouchesOneElement : Prop :=
  ∀ (s : State) (rest : List RunStep) (i : Nat), s.store.wf s.params.size = true → i < s.params.size →
    (∀ sp, s.schedule = .hostReadBit sp i :: rest →
      step s = .next { s with schedule := rest, hostAnswers := s.hostAnswers ++ [.bit (s.store.bit sp i)] }) ∧
    (∀ sp, s.schedule = .hostReadReg sp i :: rest →
      step s = .next { s with schedule := rest, hostAnswers := s.hostAnswers ++ [.reg (s.store.reg sp i)] }) ∧
    (∀ sp v, s.schedule = .hostWriteBit sp i v :: rest →
      ∃ st : Store, step s = .next { s with schedule := rest, store := st } ∧
      (∀ sp' k, st.bit sp' k = if sp' = sp ∧ k = i then v else s.store.bit sp' k) ∧
      ∀ sp' k, st.reg sp' k = s.store.reg sp' k) ∧
    (∀ sp v, s.schedule = .hostWriteReg sp i v :: rest →
      ∃ st : Store, step s = .next { s with schedule := rest, store := st } ∧
      (∀ sp' k, st.reg sp' k = if sp' = sp ∧ k = i then v else s.store.reg sp' k) ∧
      ∀ sp' k, st.bit sp' k = s.store.bit sp' k)

/-- Rule R69: a host access at or past `N` touches no element. That the host is answered `illegalDataAddress` and the
run goes on is the model's choice (log entry 4). -/
def Obligations.HostAccessOutsideSpaceTouchesNothing : Prop :=
  ∀ (s : State) (rest : List RunStep) (i : Nat), s.params.size ≤ i →
    ((∃ sp, s.schedule = .hostReadBit sp i :: rest) ∨ (∃ sp, s.schedule = .hostReadReg sp i :: rest) ∨
      (∃ sp v, s.schedule = .hostWriteBit sp i v :: rest) ∨ (∃ sp v, s.schedule = .hostWriteReg sp i v :: rest)) →
    step s = .next { s with schedule := rest, hostAnswers := s.hostAnswers ++ [.illegalDataAddress] }

/-- A reset brings the store to its reset values and leaves no transaction in progress, whatever the state before it. That
a reset is such a step is the spec's own decision D17; that the run's record and the response port are treated so is the
model's choice (log entry 5). -/
def Obligations.ResetStepForgetsStore : Prop :=
  ∀ (s : State) (rest : List RunStep), s.schedule = .reset :: rest →
    step s = .next
      { State.reset with
        params := s.params
        schedule := rest
        exchanges := s.exchanges
        hostAnswers := s.hostAnswers }

/-- Rule R257: with no step presented the block is idle and the store holds its contents. That an idle step is a step at all
is the model's choice (log entry 3). -/
def Obligations.IdleStepChangesNothing : Prop :=
  ∀ s : State, s.schedule = [] → step s = .next s

/-! ### The assembler notation -/

/-- The lines with fixed operands assemble to the frames of their instructions; the lines with byte lists do so
when the count fits its byte, an empty list included; a raw line is its own bytes. The notation is the spec's own (D16).
That an empty list is accepted, where rule R106 writes its lists from index 0, and which lines are refused, are the model's
choice (log entry 18). -/
def Obligations.AssembledLinesAreTheirInstructions : Prop :=
  ∀ (h : Header) (a b : U16) (fc : Byte) (bytes : List Byte) (vs : List U16),
    assemble h (.rdcoils a b) = some (encodeFrame h (.rdcoils (.fields a b))) ∧
    assemble h (.rddisc a b) = some (encodeFrame h (.rddisc (.fields a b))) ∧
    assemble h (.rdhold a b) = some (encodeFrame h (.rdhold (.fields a b))) ∧
    assemble h (.rdinput a b) = some (encodeFrame h (.rdinput (.fields a b))) ∧
    assemble h (.wrcoil a b) = some (encodeFrame h (.wrcoil (.fields a b))) ∧
    assemble h (.wrreg a b) = some (encodeFrame h (.wrreg (.fields a b))) ∧
    (bytes.length ≤ 255 → assemble h (.wrcoils a b bytes) =
      some (encodeFrame h (.wrcoils (.fields a b (BitVec.ofNat 8 bytes.length) bytes)))) ∧
    (2 * vs.length ≤ 255 → assemble h (.wrregs a vs) = some (encodeFrame h (.wrregs
      (.fields a (BitVec.ofNat 16 vs.length) (BitVec.ofNat 8 (2 * vs.length)) (vs.flatMap enc16))))) ∧
    assemble h .reportid = some (encodeFrame h (.reportid [])) ∧
    (2 + bytes.length ≤ 65535 → assemble h (.pdu fc bytes) = some (frameOfPdu h (fc :: bytes))) ∧
    (65535 < 2 + bytes.length → assemble h (.pdu fc bytes) = none) ∧
    assemble h (.raw bytes) = some bytes

/-- Each pseudo-instruction is the one line it stands for. The notation is the spec's own (D16). That `WRBITS` takes any
list, an empty one included, where rule R107 writes its list from index 0, is the model's choice (log entry 18). -/
def Obligations.PseudoInstructionsExpand : Prop :=
  ∀ (h : Header) (a : U16) (bits : List Bool) (fc : Byte),
    assemble h (.setcoil a) = assemble h (.wrcoil a 0xFF00) ∧
    assemble h (.clrcoil a) = assemble h (.wrcoil a 0x0000) ∧
    assemble h (.wrbits a bits) = assemble h (.wrcoils a (BitVec.ofNat 16 bits.length) (pack bits)) ∧
    assemble h (.illegal fc) = assemble h (.pdu fc [])
end

