-- ==== Sys2Proof/Laws/Codec.lean ====
section
/-! SUPPORT. Laws of the bit-packing codec: sizes, and where one bit goes. -/

namespace Sys2Proof.Machine

theorem ceilDiv_eight (n : Nat) : ceilDiv n 8 = (n + 7) / 8 := rfl

theorem bitsToNat_testBit : ∀ (bits : List Bool) (i : Nat), (bitsToNat bits).testBit i = bits.getD i false
  | [], i => by simp [bitsToNat]
  | b :: rest, 0 => by
    rw [bitsToNat, Nat.testBit_zero, List.getD_cons_zero]
    cases b <;> simp
  | b :: rest, i + 1 => by
    rw [bitsToNat, Nat.testBit_succ, List.getD_cons_succ, ← bitsToNat_testBit rest i]
    congr 1
    cases b
    · simp
    · simp only [Bool.toNat_true]
      omega

theorem packBytes_length : ∀ (n : Nat) (bits : List Bool), (packBytes n bits).length = n
  | 0, _ => rfl
  | n + 1, bits => by rw [packBytes, List.length_cons, packBytes_length n]

/-- Bit `i` of byte `k` is element `8 * k + i`; past the end of the sequence it is 0. -/
theorem packBytes_bit : ∀ (n : Nat) (bits : List Bool) (k i : Nat), k < n → i < 8 →
    ((packBytes n bits).getD k 0).getLsbD i = bits.getD (8 * k + i) false
  | 0, _, _, _, h, _ => absurd h (by omega)
  | n + 1, bits, 0, i, _, hi => by
    rw [packBytes, List.getD_cons_zero, BitVec.getLsbD_ofNat, bitsToNat_testBit]
    simp [hi, List.getD_eq_getElem?_getD]
  | n + 1, bits, k + 1, i, h, hi => by
    rw [packBytes, List.getD_cons_succ, packBytes_bit n _ k i (by omega) hi]
    simp only [List.getD_eq_getElem?_getD, List.getElem?_drop]
    congr 2
    omega

theorem unpack_length (bytes : List Byte) (count : Nat) : (unpack bytes count).length = count := by
  simp only [unpack, List.length_map, List.length_range]

/-- Bit `i` of the result is bit `i mod 8` of byte `i div 8` (rule R144). -/
theorem unpack_getD (bytes : List Byte) (count i : Nat) (d : Bool) (h : i < count) :
    (unpack bytes count).getD i d = (bytes.getD (i / 8) 0).getLsbD (i % 8) := by
  simp [unpack, List.getD_eq_getElem?_getD, List.getElem?_map, List.getElem?_range h]

end Sys2Proof.Machine
end

