-- ==== Sys2Proof/Laws/Memory.lean ====
section
/-! SUPPORT. Laws of the store arrays: what a write changes and leaves, and that the canonical form is kept. -/

namespace Sys2Proof.Machine

variable {α : Type}

theorem Memory.wfFrom_cons [DecidableEq α] {dflt : α} {n lo i : Nat} {v : α} {rest : Memory α} :
    Memory.wfFrom dflt n lo ((i, v) :: rest) = true ↔
      lo ≤ i ∧ i < n ∧ v ≠ dflt ∧ Memory.wfFrom dflt n (i + 1) rest = true := by
  simp only [Memory.wfFrom, Bool.and_eq_true, decide_eq_true_eq, and_assoc]

/-- A lower start is a weaker demand on the form. -/
theorem Memory.wfFrom_mono [DecidableEq α] {dflt : α} {n lo lo' : Nat} {m : Memory α} (hle : lo' ≤ lo)
    (h : Memory.wfFrom dflt n lo m = true) : Memory.wfFrom dflt n lo' m = true := by
  cases m with
  | nil => rfl
  | cons c rest =>
    obtain ⟨h1, h2, h3, h4⟩ := Memory.wfFrom_cons.mp h
    exact Memory.wfFrom_cons.mpr ⟨by omega, h2, h3, h4⟩

/-- Below its first index an array reads as the default. -/
theorem Memory.get_below [DecidableEq α] {dflt : α} {n : Nat} :
    ∀ {m : Memory α} {lo i : Nat}, Memory.wfFrom dflt n lo m = true → i < lo → Memory.get dflt m i = dflt
  | [], _, _, _, _ => rfl
  | (j, w) :: rest, lo, i, h, hi => by
    obtain ⟨h1, _, _, h4⟩ := Memory.wfFrom_cons.mp h
    have hne : j ≠ i := by omega
    simp only [Memory.get, if_neg hne]
    exact Memory.get_below h4 (by omega)

/-- At or past the size of an array every index reads as the default: no element is there (rule R69). -/
theorem Memory.get_outside [DecidableEq α] {dflt : α} {n : Nat} :
    ∀ {m : Memory α} {lo i : Nat}, Memory.wfFrom dflt n lo m = true → n ≤ i → Memory.get dflt m i = dflt
  | [], _, _, _, _ => rfl
  | (j, w) :: rest, lo, i, h, hi => by
    obtain ⟨_, h2, _, h4⟩ := Memory.wfFrom_cons.mp h
    have hne : j ≠ i := by omega
    simp only [Memory.get, if_neg hne]
    exact Memory.get_outside h4 hi

/-- What one write does to every read: the index written reads as the value, every other index as before. -/
theorem Memory.get_set [DecidableEq α] {dflt : α} {n : Nat} (v : α) (i k : Nat) :
    ∀ {m : Memory α} {lo : Nat}, Memory.wfFrom dflt n lo m = true →
      Memory.get dflt (Memory.set dflt m i v) k = if i = k then v else Memory.get dflt m k
  | [], _, _ => by
    by_cases hv : v = dflt <;> by_cases hik : i = k <;> simp [Memory.set, Memory.get, hv, hik]
  | (j, w) :: rest, lo, h => by
    obtain ⟨_, _, _, h4⟩ := Memory.wfFrom_cons.mp h
    simp only [Memory.set]
    by_cases hlt : i < j
    · rw [if_pos hlt]
      by_cases hik : i = k
      · subst hik
        have hji : j ≠ i := by omega
        by_cases hv : v = dflt
        · simp only [hv, if_true, Memory.get, if_neg hji]
          exact Memory.get_below h4 (by omega)
        · simp [hv, Memory.get]
      · by_cases hv : v = dflt <;> simp [hv, Memory.get, hik]
    · rw [if_neg hlt]
      by_cases hij : i = j
      · subst hij
        rw [if_pos rfl]
        by_cases hik : i = k
        · subst hik
          by_cases hv : v = dflt
          · simp only [hv, if_true]
            exact Memory.get_below h4 (by omega)
          · simp [hv, Memory.get]
        · by_cases hv : v = dflt <;> simp [hv, Memory.get, hik]
      · rw [if_neg hij]
        simp only [Memory.get, Memory.get_set v i k h4]
        by_cases hjk : j = k
        · subst hjk
          simp [hij]
        · simp [hjk]

/-- One write inside the array keeps the canonical form. -/
theorem Memory.wfFrom_set [DecidableEq α] {dflt : α} {n : Nat} {v : α} {i : Nat} (hi : i < n) :
    ∀ {m : Memory α} {lo : Nat}, lo ≤ i → Memory.wfFrom dflt n lo m = true →
      Memory.wfFrom dflt n lo (Memory.set dflt m i v) = true
  | [], lo, hlo, _ => by
    by_cases hv : v = dflt
    · simp [Memory.set, hv, Memory.wfFrom]
    · simp only [Memory.set, hv, if_false]
      exact Memory.wfFrom_cons.mpr ⟨hlo, hi, hv, rfl⟩
  | (j, w) :: rest, lo, hlo, h => by
    obtain ⟨h1, h2, h3, h4⟩ := Memory.wfFrom_cons.mp h
    simp only [Memory.set]
    by_cases hlt : i < j
    · rw [if_pos hlt]
      by_cases hv : v = dflt
      · rwa [if_pos hv]
      · rw [if_neg hv]
        exact Memory.wfFrom_cons.mpr ⟨hlo, hi, hv, Memory.wfFrom_cons.mpr ⟨by omega, h2, h3, h4⟩⟩
    · rw [if_neg hlt]
      by_cases hij : i = j
      · subst hij
        rw [if_pos rfl]
        by_cases hv : v = dflt
        · rw [if_pos hv]
          exact Memory.wfFrom_mono (by omega) h4
        · rw [if_neg hv]
          exact Memory.wfFrom_cons.mpr ⟨hlo, hi, hv, h4⟩
      · rw [if_neg hij]
        exact Memory.wfFrom_cons.mpr ⟨h1, h2, h3, Memory.wfFrom_set hi (by omega) h4⟩

theorem Memory.wf_set [DecidableEq α] {dflt : α} {n : Nat} {m : Memory α} {v : α} {i : Nat} (hi : i < n)
    (h : Memory.wf dflt n m = true) : Memory.wf dflt n (Memory.set dflt m i v) = true :=
  Memory.wfFrom_set hi (Nat.zero_le i) h

/-- A write inside the array keeps the canonical form. -/
theorem Memory.wf_write [DecidableEq α] {dflt : α} {n : Nat} :
    ∀ {vs : List α} {m : Memory α} {a : Nat}, a + vs.length ≤ n → Memory.wf dflt n m = true →
      Memory.wf dflt n (Memory.write dflt m a vs) = true
  | [], _, _, _, h => h
  | v :: vs, m, a, ha, h => by
    simp only [List.length_cons] at ha
    rw [Memory.write]
    exact Memory.wf_write (by omega) (Memory.wf_set (v := v) (by omega : a < n) h)

/-- What a write does to every read: `vs[j]` at index `a + j`, every other index as before (rule R15). -/
theorem Memory.get_write [DecidableEq α] {dflt : α} {n : Nat} (k : Nat) :
    ∀ {vs : List α} {m : Memory α} {a : Nat}, a + vs.length ≤ n → Memory.wf dflt n m = true →
      Memory.get dflt (Memory.write dflt m a vs) k =
        if a ≤ k ∧ k < a + vs.length then vs.getD (k - a) dflt else Memory.get dflt m k
  | [], m, a, _, _ => by
    simp only [Memory.write, List.length_nil]
    rw [if_neg (by omega)]
  | v :: vs, m, a, ha, h => by
    simp only [List.length_cons] at ha
    rw [Memory.write, Memory.get_write k (by omega) (Memory.wf_set (v := v) (by omega : a < n) h), Memory.get_set v a k h,
      List.length_cons]
    by_cases hak : a = k
    · subst hak
      rw [if_neg (by omega), if_pos rfl, if_pos (by omega), Nat.sub_self, List.getD_cons_zero]
    · rw [if_neg hak]
      by_cases hin : a + 1 ≤ k ∧ k < a + 1 + vs.length
      · rw [if_pos hin, if_pos (by omega), show k - a = (k - (a + 1)) + 1 by omega, List.getD_cons_succ]
      · rw [if_neg hin, if_neg (by omega)]

theorem Memory.read_length {dflt : α} (m : Memory α) (a n : Nat) : (Memory.read dflt m a n).length = n := by
  simp only [Memory.read, List.length_map, List.length_range]

/-- Element `j` of `MemRead(sp, a, n)` is element `a + j` of the space (rule R15). -/
theorem Memory.read_getD {dflt d : α} (m : Memory α) (a n j : Nat) (h : j < n) :
    (Memory.read dflt m a n).getD j d = Memory.get dflt m (a + j) := by
  simp [Memory.read, List.getD_eq_getElem?_getD, List.getElem?_map, List.getElem?_range h]

/-- The canonical form of the store, space by space. -/
theorem Store.wf_iff {n : Nat} {st : Store} : st.wf n = true ↔
    Memory.wf false n st.co = true ∧ Memory.wf false n st.di = true ∧ Memory.wf 0 n st.hr = true ∧ Memory.wf 0 n st.ir = true := by
  simp only [Store.wf, Bool.and_eq_true, and_assoc]

theorem Store.bits_wf {n : Nat} {st : Store} (h : st.wf n = true) (sp : BitSpace) : Memory.wf false n (st.bits sp) = true := by
  obtain ⟨h1, h2, _, _⟩ := Store.wf_iff.mp h
  cases sp <;> assumption

theorem Store.regs_wf {n : Nat} {st : Store} (h : st.wf n = true) (sp : RegSpace) : Memory.wf 0 n (st.regs sp) = true := by
  obtain ⟨_, _, h3, h4⟩ := Store.wf_iff.mp h
  cases sp <;> assumption

theorem Store.zero_wf (n : Nat) : Store.zero.wf n = true := rfl

theorem Store.wf_writeBits {n : Nat} {st : Store} {sp : BitSpace} {a : Nat} {vs : List Bool} (ha : a + vs.length ≤ n)
    (h : st.wf n = true) : (st.writeBits sp a vs).wf n = true := by
  obtain ⟨h1, h2, h3, h4⟩ := Store.wf_iff.mp h
  cases sp
  · exact Store.wf_iff.mpr ⟨Memory.wf_write ha h1, h2, h3, h4⟩
  · exact Store.wf_iff.mpr ⟨h1, Memory.wf_write ha h2, h3, h4⟩

theorem Store.wf_writeRegs {n : Nat} {st : Store} {sp : RegSpace} {a : Nat} {vs : List U16} (ha : a + vs.length ≤ n)
    (h : st.wf n = true) : (st.writeRegs sp a vs).wf n = true := by
  obtain ⟨h1, h2, h3, h4⟩ := Store.wf_iff.mp h
  cases sp
  · exact Store.wf_iff.mpr ⟨h1, h2, Memory.wf_write ha h3, h4⟩
  · exact Store.wf_iff.mpr ⟨h1, h2, h3, Memory.wf_write ha h4⟩

/-- Bits written are read back from the space written; the other bit space reads as before. -/
theorem Store.bit_writeBits {n : Nat} {st : Store} {sp : BitSpace} {a : Nat} {vs : List Bool} (ha : a + vs.length ≤ n)
    (h : st.wf n = true) (sp' : BitSpace) (k : Nat) :
    (st.writeBits sp a vs).bit sp' k =
      if sp' = sp ∧ a ≤ k ∧ k < a + vs.length then vs.getD (k - a) false else st.bit sp' k := by
  have hw := Store.bits_wf h
  cases sp <;> cases sp'
  · simp only [true_and]
    exact Memory.get_write k ha (hw .co)
  · rw [if_neg (by simp)]; rfl
  · rw [if_neg (by simp)]; rfl
  · simp only [true_and]
    exact Memory.get_write k ha (hw .di)

/-- Registers written are read back from the space written; the other register space reads as before. -/
theorem Store.reg_writeRegs {n : Nat} {st : Store} {sp : RegSpace} {a : Nat} {vs : List U16} (ha : a + vs.length ≤ n)
    (h : st.wf n = true) (sp' : RegSpace) (k : Nat) :
    (st.writeRegs sp a vs).reg sp' k =
      if sp' = sp ∧ a ≤ k ∧ k < a + vs.length then vs.getD (k - a) 0 else st.reg sp' k := by
  have hw := Store.regs_wf h
  cases sp <;> cases sp'
  · simp only [true_and]
    exact Memory.get_write k ha (hw .hr)
  · rw [if_neg (by simp)]; rfl
  · rw [if_neg (by simp)]; rfl
  · simp only [true_and]
    exact Memory.get_write k ha (hw .ir)

theorem Store.reg_writeBits (st : Store) (sp : BitSpace) (a : Nat) (vs : List Bool) (sp' : RegSpace) (k : Nat) :
    (st.writeBits sp a vs).reg sp' k = st.reg sp' k := by
  cases sp <;> cases sp' <;> rfl

theorem Store.bit_writeRegs (st : Store) (sp : RegSpace) (a : Nat) (vs : List U16) (sp' : BitSpace) (k : Nat) :
    (st.writeRegs sp a vs).bit sp' k = st.bit sp' k := by
  cases sp <;> cases sp' <;> rfl

end Sys2Proof.Machine
end

