-- ==== Sys2Proof/Laws/State.lean ====
section
/-! SUPPORT. What each update of the state leaves in each field: one lemma per field per update, so that no later proof
unfolds a record update. -/

namespace Sys2Proof.Machine

variable (s : State)

@[simp] theorem emit_params (st : Store) (pdu : List Byte) : (s.emit st pdu).params = s.params := rfl
@[simp] theorem emit_store (st : Store) (pdu : List Byte) : (s.emit st pdu).store = st := rfl
@[simp] theorem emit_latches (st : Store) (pdu : List Byte) : (s.emit st pdu).latches = Latches.clear := rfl
@[simp] theorem emit_req (st : Store) (pdu : List Byte) : (s.emit st pdu).req = [] := rfl
@[simp] theorem emit_rsp (st : Store) (pdu : List Byte) :
    (s.emit st pdu).rsp = frame s.latches.tid s.latches.pid s.latches.unit pdu := rfl
@[simp] theorem emit_schedule (st : Store) (pdu : List Byte) : (s.emit st pdu).schedule = s.schedule := rfl
@[simp] theorem emit_exchanges (st : Store) (pdu : List Byte) :
    (s.emit st pdu).exchanges = s.exchanges ++ [⟨s.req, frame s.latches.tid s.latches.pid s.latches.unit pdu⟩] := rfl
@[simp] theorem emit_hostAnswers (st : Store) (pdu : List Byte) : (s.emit st pdu).hostAnswers = s.hostAnswers := rfl

@[simp] theorem load_params (req : List Byte) : (s.load req).params = s.params := rfl
@[simp] theorem load_store (req : List Byte) : (s.load req).store = s.store := rfl
@[simp] theorem load_latches (req : List Byte) : (s.load req).latches = (parse req).1 := rfl
@[simp] theorem load_req (req : List Byte) : (s.load req).req = req := rfl
@[simp] theorem load_rsp (req : List Byte) : (s.load req).rsp = [] := rfl
@[simp] theorem load_schedule (req : List Byte) : (s.load req).schedule = s.schedule := rfl
@[simp] theorem load_exchanges (req : List Byte) : (s.load req).exchanges = s.exchanges := rfl
@[simp] theorem load_hostAnswers (req : List Byte) : (s.load req).hostAnswers = s.hostAnswers := rfl

@[simp] theorem applyReset_params : s.applyReset.params = s.params := rfl
@[simp] theorem applyReset_store : s.applyReset.store = Store.zero := rfl
@[simp] theorem applyReset_latches : s.applyReset.latches = Latches.clear := rfl
@[simp] theorem applyReset_req : s.applyReset.req = [] := rfl
@[simp] theorem applyReset_rsp : s.applyReset.rsp = [] := rfl
@[simp] theorem applyReset_schedule : s.applyReset.schedule = s.schedule := rfl
@[simp] theorem applyReset_exchanges : s.applyReset.exchanges = s.exchanges := rfl
@[simp] theorem applyReset_hostAnswers : s.applyReset.hostAnswers = s.hostAnswers := rfl

@[simp] theorem answerHost_params (a : HostAnswer) : (s.answerHost a).params = s.params := rfl
@[simp] theorem answerHost_store (a : HostAnswer) : (s.answerHost a).store = s.store := rfl
@[simp] theorem answerHost_latches (a : HostAnswer) : (s.answerHost a).latches = s.latches := rfl
@[simp] theorem answerHost_req (a : HostAnswer) : (s.answerHost a).req = s.req := rfl
@[simp] theorem answerHost_rsp (a : HostAnswer) : (s.answerHost a).rsp = s.rsp := rfl
@[simp] theorem answerHost_schedule (a : HostAnswer) : (s.answerHost a).schedule = s.schedule := rfl
@[simp] theorem answerHost_exchanges (a : HostAnswer) : (s.answerHost a).exchanges = s.exchanges := rfl
@[simp] theorem answerHost_hostAnswers (a : HostAnswer) : (s.answerHost a).hostAnswers = s.hostAnswers ++ [a] := rfl

/-- The end of a transaction, as one value: every field but the store, the response and the record of the run is fixed. -/
theorem emit_eq_ended (st : Store) (pdu : List Byte) : s.emit st pdu =
    s.ended s.req (frame s.latches.tid s.latches.pid s.latches.unit pdu) st s.schedule := rfl

theorem takeException_eq_emit (k : Failure) : s.takeException k = s.emit s.store (encodeException s.latches.fc k) := rfl

theorem respond_ok (pdu : List Byte) (st : Store) : s.respond (.ok (pdu, st)) = s.emit st pdu := rfl

theorem respond_error (k : Failure) : s.respond (.error k) = s.takeException k := rfl

/-- `inRange` is the inequality of rule R66, on natural numbers. -/
theorem inRange_iff (a n : Nat) : s.inRange a n = true ↔ a + n ≤ s.params.size := by
  simp only [State.inRange, decide_eq_true_eq]

end Sys2Proof.Machine
end

