-- ==== Sys2Proof/Laws/Wire.lean ====
section
/-! SUPPORT. Laws of the wire: u16 values and their two bytes, and the size and fields of a response frame. -/

namespace Sys2Proof

/-- Reading back the two bytes of a u16 gives it (rules R14, R60). -/
theorem be16_of_bytes (v : U16) : be16 (v.extractLsb' 8 8) (v.extractLsb' 0 8) = v := by
  apply BitVec.eq_of_toNat_eq
  simp only [be16, BitVec.toNat_ofNat, BitVec.extractLsb'_toNat, Nat.shiftRight_eq_div_pow]
  have := v.isLt
  omega

/-- The exact value of a u16 read from two bytes: nothing wraps (rules R13, R14). -/
theorem be16_toNat (hi lo : Byte) : (be16 hi lo).toNat = hi.toNat * 256 + lo.toNat := by
  simp only [be16, BitVec.toNat_ofNat]
  have := hi.isLt
  have := lo.isLt
  omega

/-- Writing out a u16 read from two bytes gives those bytes (rules R14, R60). -/
theorem enc16_be16 (hi lo : Byte) : enc16 (be16 hi lo) = [hi, lo] := by
  have h1 := hi.isLt
  have h2 := lo.isLt
  have e1 : (be16 hi lo).extractLsb' 8 8 = hi := by
    apply BitVec.eq_of_toNat_eq
    simp only [BitVec.extractLsb'_toNat, be16_toNat, Nat.shiftRight_eq_div_pow]
    omega
  have e2 : (be16 hi lo).extractLsb' 0 8 = lo := by
    apply BitVec.eq_of_toNat_eq
    simp only [BitVec.extractLsb'_toNat, be16_toNat, Nat.shiftRight_eq_div_pow]
    omega
  rw [enc16, e1, e2]

theorem enc16_length (v : U16) : (enc16 v).length = 2 := rfl

/-- The register values of a data field are the registers written out one after the other (rule R97). -/
theorem flatMap_enc16_length (vs : List U16) : (vs.flatMap enc16).length = 2 * vs.length := by
  induction vs with
  | nil => rfl
  | cons v vs ih => simp only [List.flatMap_cons, List.length_append, enc16_length, ih, List.length_cons]; omega

namespace Machine

/-- A response frame has 7 bytes before its PDU (rule R146). -/
theorem frame_length (t p : U16) (u : Byte) (r : List Byte) : (frame t p u r).length = 7 + r.length := by
  simp only [frame, List.length_append, enc16_length, List.length_cons, List.length_nil]

/-- A response frame, byte by byte (rule R146). -/
theorem frame_eq (t p : U16) (u : Byte) (r : List Byte) :
    frame t p u r = t.extractLsb' 8 8 :: t.extractLsb' 0 8 :: p.extractLsb' 8 8 :: p.extractLsb' 0 8 ::
      (BitVec.ofNat 16 (1 + r.length)).extractLsb' 8 8 :: (BitVec.ofNat 16 (1 + r.length)).extractLsb' 0 8 :: u :: r := rfl

/-- Read pairwise, the bytes of registers written out are the registers (rule R97). -/
theorem registerValues_flatMap_enc16 (vs : List U16) : registerValues (vs.flatMap enc16) = vs := by
  induction vs with
  | nil => rfl
  | cons v vs ih =>
    simp only [List.flatMap_cons, enc16, List.cons_append, List.nil_append, registerValues, be16_of_bytes, ih]

/-- The values of a data field: one for each whole pair of bytes, `be16(data, 2*j)` (rule R97). -/
theorem registerValues_spec : ∀ data : List Byte,
    (registerValues data).length = data.length / 2 ∧
    ∀ j, 2 * j + 1 < data.length →
      (registerValues data).getD j 0 = be16 (data.getD (2 * j) 0) (data.getD (2 * j + 1) 0)
  | [] => ⟨rfl, fun j h => absurd h (by simp)⟩
  | [_] => ⟨by simp [registerValues], fun j h => absurd h (by simp)⟩
  | hi :: lo :: rest => by
    obtain ⟨hl, hv⟩ := registerValues_spec rest
    refine ⟨by simp only [registerValues, List.length_cons, hl]; omega, ?_⟩
    rintro (_ | j) h
    · rfl
    · have := hv j (by simp only [List.length_cons] at h; omega)
      simpa only [registerValues, List.getD_cons_succ, Nat.mul_succ] using this

end Machine

end Sys2Proof
end

