-- ==== Sys2Proof/Laws/Handlers.lean ====
section
/-! SUPPORT. What each handler can do, said once: the eight shared bodies, then any instruction. -/

namespace Sys2Proof.Machine

/-- The handler of an instruction (rule R140). -/
def handle (i : Instr) (s : State) : Except Failure Reply :=
  match i with
  | .rdcoils op => readBits .co 0x01 op s
  | .rddisc op => readBits .di 0x02 op s
  | .rdhold op => readRegs .hr 0x03 op s
  | .rdinput op => readRegs .ir 0x04 op s
  | .wrcoil op => writeSingleCoil op s
  | .wrreg op => writeSingleRegister op s
  | .wrcoils op => writeMultipleCoils op s
  | .wrregs op => writeMultipleRegisters op s
  | .reportid ignored => reportSlaveId ignored s
  | .illegal _ _ => .error .illegalFunction

/-- Every meaning is its handler's outcome, framed (rules R130, R142). -/
theorem exec_eq_respond (i : Instr) (s : State) : exec i s = .next (s.respond (handle i s)) := by
  cases i <;> rfl

/-- A read reply that does not fail (rule R150). -/
theorem readReply_ok {f : Byte} {st st' : Store} {d pdu : List Byte} (h : readReply f st d = .ok (pdu, st')) :
    d.length ≤ 255 ∧ pdu = [f, BitVec.ofNat 8 d.length] ++ d ∧ st' = st := by
  simp only [readReply] at h
  split at h
  · cases h
  · cases h
    exact ⟨by omega, rfl, rfl⟩

/-- A bit read that does not fail (rule R169). -/
theorem readBits_ok {sp : BitSpace} {f : Byte} {op : RangeOperand} {s : State} {pdu : List Byte} {st : Store}
    (h : readBits sp f op s = .ok (pdu, st)) : ∃ start qty, op = .fields start qty ∧
      start.toNat + qty.toNat ≤ s.params.size ∧ (qty.toNat + 7) / 8 ≤ 255 ∧ st = s.store ∧
      pdu = [f, BitVec.ofNat 8 ((qty.toNat + 7) / 8)] ++ pack (Memory.read false (s.store.bits sp) start.toNat qty.toNat) := by
  cases op with
  | badLength raw => cases h
  | fields start qty =>
    simp only [readBits] at h
    split at h
    · rename_i hr
      have hl : (pack (Memory.read false (s.store.bits sp) start.toNat qty.toNat)).length = (qty.toNat + 7) / 8 := by
        rw [pack, packBytes_length, Memory.read_length, ceilDiv_eight]
      obtain ⟨h1, h2, h3⟩ := readReply_ok h
      rw [hl] at h1 h2
      exact ⟨start, qty, rfl, (inRange_iff s _ _).mp hr, h1, h3, h2⟩
    · cases h

/-- A register read that does not fail (rule R169). -/
theorem readRegs_ok {sp : RegSpace} {f : Byte} {op : RangeOperand} {s : State} {pdu : List Byte} {st : Store}
    (h : readRegs sp f op s = .ok (pdu, st)) : ∃ start qty, op = .fields start qty ∧
      start.toNat + qty.toNat ≤ s.params.size ∧ 2 * qty.toNat ≤ 255 ∧ st = s.store ∧
      pdu = [f, BitVec.ofNat 8 (2 * qty.toNat)] ++ (Memory.read 0 (s.store.regs sp) start.toNat qty.toNat).flatMap enc16 := by
  cases op with
  | badLength raw => cases h
  | fields start qty =>
    simp only [readRegs] at h
    split at h
    · rename_i hr
      obtain ⟨h1, h2, h3⟩ := readReply_ok h
      rw [flatMap_enc16_length, Memory.read_length] at h1 h2
      exact ⟨start, qty, rfl, (inRange_iff s _ _).mp hr, h1, h3, h2⟩
    · cases h

/-- A single coil write that does not fail (rule R190). -/
theorem writeSingleCoil_ok {op : SingleOperand} {s : State} {pdu : List Byte} {st : Store}
    (h : writeSingleCoil op s = .ok (pdu, st)) : ∃ addr value, op = .fields addr value ∧ addr.toNat + 1 ≤ s.params.size ∧
      pdu = [0x05] ++ enc16 addr ++ enc16 value ∧ st = s.store.writeBits .co addr.toNat [coilBit value] := by
  cases op with
  | badLength raw => cases h
  | fields addr value =>
    simp only [writeSingleCoil] at h
    split at h
    · rename_i hr
      cases h
      exact ⟨addr, value, rfl, (inRange_iff s _ _).mp hr, rfl, rfl⟩
    · cases h

/-- A single register write that does not fail (rule R191). -/
theorem writeSingleRegister_ok {op : SingleOperand} {s : State} {pdu : List Byte} {st : Store}
    (h : writeSingleRegister op s = .ok (pdu, st)) : ∃ addr value, op = .fields addr value ∧ addr.toNat + 1 ≤ s.params.size ∧
      pdu = [0x06] ++ enc16 addr ++ enc16 value ∧ st = s.store.writeRegs .hr addr.toNat [value] := by
  cases op with
  | badLength raw => cases h
  | fields addr value =>
    simp only [writeSingleRegister] at h
    split at h
    · rename_i hr
      cases h
      exact ⟨addr, value, rfl, (inRange_iff s _ _).mp hr, rfl, rfl⟩
    · cases h

/-- A multiple coil write that does not fail: the data hold enough bits for `unpack` (rules R144, R192). -/
theorem writeMultipleCoils_ok {op : MultiOperand} {s : State} {pdu : List Byte} {st : Store}
    (h : writeMultipleCoils op s = .ok (pdu, st)) : ∃ start qty bc data, op = .fields start qty bc data ∧
      bc.toNat = data.length ∧ qty.toNat ≤ 8 * data.length ∧ start.toNat + qty.toNat ≤ s.params.size ∧
      pdu = [0x0F] ++ enc16 start ++ enc16 qty ∧ st = s.store.writeBits .co start.toNat (unpack data qty.toNat) := by
  cases op with
  | tooShort raw => cases h
  | fields start qty bc data =>
    simp only [writeMultipleCoils] at h
    split at h
    · cases h
    · rename_i hbc
      split at h
      · cases h
      · split at h
        · rename_i hr
          cases h
          exact ⟨start, qty, bc, data, rfl, by omega, by omega, (inRange_iff s _ _).mp hr, rfl, rfl⟩
        · cases h

/-- A multiple register write that does not fail (rule R193). -/
theorem writeMultipleRegisters_ok {op : MultiOperand} {s : State} {pdu : List Byte} {st : Store}
    (h : writeMultipleRegisters op s = .ok (pdu, st)) : ∃ start qty bc data, op = .fields start qty bc data ∧
      bc.toNat = 2 * qty.toNat ∧ data.length = 2 * qty.toNat ∧ start.toNat + qty.toNat ≤ s.params.size ∧
      pdu = [0x10] ++ enc16 start ++ enc16 qty ∧ st = s.store.writeRegs .hr start.toNat (registerValues data) := by
  cases op with
  | tooShort raw => cases h
  | fields start qty bc data =>
    simp only [writeMultipleRegisters] at h
    split at h
    · cases h
    · split at h
      · cases h
      · split at h
        · rename_i hr
          cases h
          exact ⟨start, qty, bc, data, rfl, by omega, by omega, (inRange_iff s _ _).mp hr, rfl, rfl⟩
        · cases h

/-- What a handler that does not fail answers: a PDU of 2 to 257 bytes that begins with the instruction's own function
code, one of the nine (rules R99, R105). -/
theorem handle_pdu {i : Instr} {s : State} {pdu : List Byte} {st : Store} (h : handle i s = .ok (pdu, st)) :
    2 ≤ pdu.length ∧ pdu.length ≤ 257 ∧ pdu.head? = some i.functionCode ∧ i.functionCode ∈ supportedCodes := by
  cases i with
  | rdcoils op =>
    obtain ⟨st, q, -, -, hq, -, rfl⟩ := readBits_ok h
    simp [pack, packBytes_length, Memory.read_length, ceilDiv_eight, Instr.functionCode, supportedCodes]; omega
  | rddisc op =>
    obtain ⟨st, q, -, -, hq, -, rfl⟩ := readBits_ok h
    simp [pack, packBytes_length, Memory.read_length, ceilDiv_eight, Instr.functionCode, supportedCodes]; omega
  | rdhold op =>
    obtain ⟨st, q, -, -, hq, -, rfl⟩ := readRegs_ok h
    simp only [List.length_append, flatMap_enc16_length, Memory.read_length, Instr.functionCode, supportedCodes]
    refine ⟨by simp, by simp; omega, rfl, by decide⟩
  | rdinput op =>
    obtain ⟨st, q, -, -, hq, -, rfl⟩ := readRegs_ok h
    simp only [List.length_append, flatMap_enc16_length, Memory.read_length, Instr.functionCode, supportedCodes]
    refine ⟨by simp, by simp; omega, rfl, by decide⟩
  | wrcoil op =>
    obtain ⟨a, v, -, -, rfl, -⟩ := writeSingleCoil_ok h
    refine ⟨by simp [enc16], by simp [enc16], rfl, by simp [Instr.functionCode, supportedCodes]⟩
  | wrreg op =>
    obtain ⟨a, v, -, -, rfl, -⟩ := writeSingleRegister_ok h
    refine ⟨by simp [enc16], by simp [enc16], rfl, by simp [Instr.functionCode, supportedCodes]⟩
  | wrcoils op =>
    obtain ⟨a, q, b, d, -, -, -, -, rfl, -⟩ := writeMultipleCoils_ok h
    refine ⟨by simp [enc16], by simp [enc16], rfl, by simp [Instr.functionCode, supportedCodes]⟩
  | wrregs op =>
    obtain ⟨a, q, b, d, -, -, -, -, rfl, -⟩ := writeMultipleRegisters_ok h
    refine ⟨by simp [enc16], by simp [enc16], rfl, by simp [Instr.functionCode, supportedCodes]⟩
  | reportid ignored =>
    cases h
    have := s.params.ident_bound
    refine ⟨by simp, by simp; omega, rfl, by simp [Instr.functionCode, supportedCodes]⟩
  | illegal fc unexamined => cases h

/-- What a handler that does not fail leaves in the store: the store as it was, or coils written inside the array by 0x05
or 0x0F, or holding registers written inside the array by 0x06 or 0x10 (rules R31 to R34, R66). -/
theorem handle_store {i : Instr} {s : State} {pdu : List Byte} {st : Store} (h : handle i s = .ok (pdu, st)) :
    st = s.store ∨
    (∃ a vs, a + vs.length ≤ s.params.size ∧ st = s.store.writeBits .co a vs ∧
      ∀ k, a ≤ k → k < a + vs.length → Instr.namesCoil k i = true) ∨
    (∃ a vs, a + vs.length ≤ s.params.size ∧ st = s.store.writeRegs .hr a vs ∧
      ∀ k, a ≤ k → k < a + vs.length → Instr.namesHolding k i = true) := by
  cases i with
  | rdcoils op => obtain ⟨_, _, -, -, -, rfl, -⟩ := readBits_ok h; exact .inl rfl
  | rddisc op => obtain ⟨_, _, -, -, -, rfl, -⟩ := readBits_ok h; exact .inl rfl
  | rdhold op => obtain ⟨_, _, -, -, -, rfl, -⟩ := readRegs_ok h; exact .inl rfl
  | rdinput op => obtain ⟨_, _, -, -, -, rfl, -⟩ := readRegs_ok h; exact .inl rfl
  | wrcoil op =>
    obtain ⟨a, v, rfl, hr, -, rfl⟩ := writeSingleCoil_ok h
    refine .inr (.inl ⟨_, _, hr, rfl, fun k h1 h2 => ?_⟩)
    simp only [List.length_cons, List.length_nil] at h2
    simp only [Instr.namesCoil, beq_iff_eq]; omega
  | wrreg op =>
    obtain ⟨a, v, rfl, hr, -, rfl⟩ := writeSingleRegister_ok h
    refine .inr (.inr ⟨_, _, hr, rfl, fun k h1 h2 => ?_⟩)
    simp only [List.length_cons, List.length_nil] at h2
    simp only [Instr.namesHolding, beq_iff_eq]; omega
  | wrcoils op =>
    obtain ⟨a, q, b, d, rfl, -, -, hr, -, rfl⟩ := writeMultipleCoils_ok h
    refine .inr (.inl ⟨_, _, by rwa [unpack_length], rfl, fun k h1 h2 => ?_⟩)
    rw [unpack_length] at h2
    simp only [Instr.namesCoil, Bool.and_eq_true, decide_eq_true_eq]
    exact ⟨h1, h2⟩
  | wrregs op =>
    obtain ⟨a, q, b, d, rfl, -, hd, hr, -, rfl⟩ := writeMultipleRegisters_ok h
    have hl : (registerValues d).length = q.toNat := by rw [(registerValues_spec d).1]; omega
    refine .inr (.inr ⟨_, _, by rwa [hl], rfl, fun k h1 h2 => ?_⟩)
    rw [hl] at h2
    simp only [Instr.namesHolding, Bool.and_eq_true, decide_eq_true_eq]
    exact ⟨h1, h2⟩
  | reportid ignored => cases h; exact .inl rfl
  | illegal fc unexamined => cases h

end Sys2Proof.Machine
end

