-- ==== Sys2Proof/Laws/HostPort.lean ====
section
/-! SUPPORT. What a host access can do, said once per access (rules R42, R69). -/

namespace Sys2Proof.Machine

/-- A host read only adds an answer (rules R42, R67). -/
theorem hostReadBit_eq (s : State) (sp : BitSpace) (i : Nat) : s.hostReadBit sp i =
    s.answerHost (if i < s.params.size then .bit (s.store.bit sp i) else .illegalDataAddress) := by
  unfold State.hostReadBit
  by_cases h : i < s.params.size
  · rw [if_pos ((inRange_iff s i 1).mpr h), if_pos h]
  · rw [if_neg (fun hr => h ((inRange_iff s i 1).mp hr)), if_neg h]

/-- A host read only adds an answer (rules R42, R67). -/
theorem hostReadReg_eq (s : State) (sp : RegSpace) (i : Nat) : s.hostReadReg sp i =
    s.answerHost (if i < s.params.size then .reg (s.store.reg sp i) else .illegalDataAddress) := by
  unfold State.hostReadReg
  by_cases h : i < s.params.size
  · rw [if_pos ((inRange_iff s i 1).mpr h), if_pos h]
  · rw [if_neg (fun hr => h ((inRange_iff s i 1).mp hr)), if_neg h]

/-- A host write inside its space changes only the store, by a write of one element (rule R42); outside it adds an answer
and changes nothing else (rule R69). -/
theorem hostWriteBit_cases (s : State) (sp : BitSpace) (i : Nat) (v : Bool) :
    (i < s.params.size ∧ s.hostWriteBit sp i v = { s with store := s.store.writeBits sp i [v] }) ∨
    (s.params.size ≤ i ∧ s.hostWriteBit sp i v = s.answerHost .illegalDataAddress) := by
  unfold State.hostWriteBit
  by_cases h : i < s.params.size
  · rw [if_pos ((inRange_iff s i 1).mpr h)]
    exact .inl ⟨h, rfl⟩
  · rw [if_neg (fun hr => h ((inRange_iff s i 1).mp hr))]
    exact .inr ⟨by omega, rfl⟩

/-- The same of a host write to a register space. -/
theorem hostWriteReg_cases (s : State) (sp : RegSpace) (i : Nat) (v : U16) :
    (i < s.params.size ∧ s.hostWriteReg sp i v = { s with store := s.store.writeRegs sp i [v] }) ∨
    (s.params.size ≤ i ∧ s.hostWriteReg sp i v = s.answerHost .illegalDataAddress) := by
  unfold State.hostWriteReg
  by_cases h : i < s.params.size
  · rw [if_pos ((inRange_iff s i 1).mpr h)]
    exact .inl ⟨h, rfl⟩
  · rw [if_neg (fun hr => h ((inRange_iff s i 1).mp hr))]
    exact .inr ⟨by omega, rfl⟩

end Sys2Proof.Machine
end

