-- ==== Sys2Proof/Laws/Parser.lean ====
section
/-! SUPPORT. What the parser can do, said once (rules R131 to R135): one of four cases, with the latches each leaves. -/

namespace Sys2Proof.Machine

/-- A request under 7 bytes stops at step 1 with nothing loaded (rule R131). -/
theorem parse_short {req : List Byte} (h : req.length < 7) : parse req = (Latches.clear, some .tooShort) := by
  unfold parse
  split
  · simp only [List.length_cons] at h
    omega
  · rfl

/-- A request of 7 bytes or more whose length is not `6 + len` stops at step 3 with its tid, pid and length loaded (rules
R132, R133). -/
theorem parse_mismatch {t1 t0 p1 p0 l1 l0 u : Byte} {pdu : List Byte} (h : 7 + pdu.length ≠ 6 + (be16 l1 l0).toNat) :
    parse (t1 :: t0 :: p1 :: p0 :: l1 :: l0 :: u :: pdu) =
      (⟨be16 t1 t0, be16 p1 p0, be16 l1 l0, 0, 0, []⟩, some .lengthMismatch) := by
  simp only [parse, List.length_cons]
  rw [if_pos (by omega)]
  rfl

/-- A request of the right length without a PDU stops at step 5 with its unit loaded too (rules R134, R135). -/
theorem parse_missing {t1 t0 p1 p0 l1 l0 u : Byte} (h : 7 = 6 + (be16 l1 l0).toNat) :
    parse [t1, t0, p1, p0, l1, l0, u] =
      (⟨be16 t1 t0, be16 p1 p0, be16 l1 l0, u, 0, []⟩, some .missingFunctionCode) := by
  simp only [parse, List.length_cons, List.length_nil]
  rw [if_neg (by omega)]
  rfl

/-- A request of the right length with a PDU is accepted with every latch loaded (rule R135). -/
theorem parse_accepts {t1 t0 p1 p0 l1 l0 u fc : Byte} {P : List Byte} (h : 8 + P.length = 6 + (be16 l1 l0).toNat) :
    parse (t1 :: t0 :: p1 :: p0 :: l1 :: l0 :: u :: fc :: P) =
      (⟨be16 t1 t0, be16 p1 p0, be16 l1 l0, u, fc, P⟩, none) := by
  simp only [parse, List.length_cons]
  rw [if_neg (by omega)]

/-- Every request is of one of the four kinds above. -/
theorem request_cases (req : List Byte) : req.length < 7 ∨ ∃ t1 t0 p1 p0 l1 l0 u pdu,
    req = t1 :: t0 :: p1 :: p0 :: l1 :: l0 :: u :: pdu ∧
    (7 + pdu.length ≠ 6 + (be16 l1 l0).toNat ∨
      (pdu = [] ∧ 7 = 6 + (be16 l1 l0).toNat) ∨
      ∃ fc P, pdu = fc :: P ∧ 8 + P.length = 6 + (be16 l1 l0).toNat) := by
  rcases req with _ | ⟨t1, _ | ⟨t0, _ | ⟨p1, _ | ⟨p0, _ | ⟨l1, _ | ⟨l0, _ | ⟨u, pdu⟩⟩⟩⟩⟩⟩⟩
  case cons.cons.cons.cons.cons.cons.cons =>
    refine .inr ⟨t1, t0, p1, p0, l1, l0, u, pdu, rfl, ?_⟩
    cases pdu with
    | nil =>
      by_cases h : 7 = 6 + (be16 l1 l0).toNat
      · exact .inr (.inl ⟨rfl, h⟩)
      · exact .inl (by simp only [List.length_nil]; omega)
    | cons fc P =>
      by_cases h : 8 + P.length = 6 + (be16 l1 l0).toNat
      · exact .inr (.inr ⟨fc, P, rfl, h⟩)
      · exact .inl (by simp only [List.length_cons]; omega)
  all_goals exact .inl (by simp)

end Sys2Proof.Machine
end

