-- ==== Sys2Proof/Laws/PerInstr.lean ====
section
/-! SUPPORT. What holds of every instruction as syntax, one lemma per constructor. -/

namespace Sys2Proof.Laws.FitsFrame

/-- The PDU of a well-formed instruction is one that a frame's u16 length field can count: with the unit it has at most
65535 bytes (rules R91, R104). -/
def Statement (i : Instr) : Prop := i.WellFormed = true → 1 + (encode i).length ≤ 65535

theorem range {op : RangeOperand} (h : op.WellFormed = true) : (encodeRange op).length ≤ maxPayload := by
  cases op with
  | fields a b => simp [encodeRange, enc16, maxPayload]
  | badLength raw => simp only [RangeOperand.WellFormed, Bool.and_eq_true, decide_eq_true_eq] at h; exact h.2

theorem single {op : SingleOperand} (h : op.WellFormed = true) : (encodeSingle op).length ≤ maxPayload := by
  cases op with
  | fields a b => simp [encodeSingle, enc16, maxPayload]
  | badLength raw => simp only [SingleOperand.WellFormed, Bool.and_eq_true, decide_eq_true_eq] at h; exact h.2

theorem multi {op : MultiOperand} (h : op.WellFormed = true) : (encodeMulti op).length ≤ maxPayload := by
  cases op with
  | fields a b c d =>
    simp only [MultiOperand.WellFormed, decide_eq_true_eq] at h
    simp only [encodeMulti, List.length_append, enc16_length, List.length_cons, List.length_nil]; omega
  | tooShort raw =>
    simp only [MultiOperand.WellFormed, decide_eq_true_eq] at h
    simp only [encodeMulti, maxPayload]; omega

/-- From the payload's bound to the frame's. -/
theorem of_payload {i : Instr} (h : i.WellFormed = true → (encodePayload i).length ≤ maxPayload) : Statement i := by
  intro hw
  have := h hw
  simp only [encode, List.length_cons, maxPayload] at *
  omega

theorem rdcoils (op : RangeOperand) : Statement (.rdcoils op) := of_payload range
theorem rddisc (op : RangeOperand) : Statement (.rddisc op) := of_payload range
theorem rdhold (op : RangeOperand) : Statement (.rdhold op) := of_payload range
theorem rdinput (op : RangeOperand) : Statement (.rdinput op) := of_payload range
theorem wrcoil (op : SingleOperand) : Statement (.wrcoil op) := of_payload single
theorem wrreg (op : SingleOperand) : Statement (.wrreg op) := of_payload single
theorem wrcoils (op : MultiOperand) : Statement (.wrcoils op) := of_payload multi
theorem wrregs (op : MultiOperand) : Statement (.wrregs op) := of_payload multi
theorem reportid (ignored : List Byte) : Statement (.reportid ignored) :=
  of_payload fun h => by simp only [Instr.WellFormed, decide_eq_true_eq] at h; exact h
theorem illegal (fc : Byte) (unexamined : List Byte) : Statement (.illegal fc unexamined) :=
  of_payload fun h => by simp only [Instr.WellFormed, Bool.and_eq_true, decide_eq_true_eq] at h; exact h.2

end Sys2Proof.Laws.FitsFrame
end

