-- ==== Sys2Proof/Laws/Step.lean ====
section
/-! SUPPORT. What one step can do, said once for each kind of step of a run (rule R289). -/

namespace Sys2Proof.Machine

/-- The outcome of a transaction: the failure that stops the parser, or what the handler gives (rule R130). -/
def outcomeOf (req : List Byte) (s : State) : Except Failure Reply :=
  match (parse req).2 with
  | some k => .error k
  | none => handle (decodePayload (parse req).1.fc (parse req).1.payload) s

theorem transact_eq (s : State) (req : List Byte) :
    s.transact req = .next ((s.load req).respond (outcomeOf req (s.load req))) := by
  simp only [State.transact, outcomeOf]
  cases (parse req).2 with
  | some k => rfl
  | none => exact exec_eq_respond _ _

theorem step_idle {s : State} (h : s.schedule = []) : step s = .next s := by
  simp only [step, h]

theorem step_reset {s : State} {rest : List RunStep} (h : s.schedule = .reset :: rest) :
    step s = .next (State.applyReset { s with schedule := rest }) := by
  simp only [step, h, State.take]

/-- A transaction always answers a next state: the outcome of its handler, framed (rules R130, R147, R148). -/
theorem step_transaction {s : State} {req : List Byte} {rest : List RunStep} (h : s.schedule = .transaction req :: rest) :
    step s = .next ((State.load { s with schedule := rest } req).respond
      (outcomeOf req (State.load { s with schedule := rest } req))) := by
  simp only [step, h, State.take, transact_eq]

theorem step_hostReadBit {s : State} {sp : BitSpace} {i : Nat} {rest : List RunStep}
    (h : s.schedule = .hostReadBit sp i :: rest) :
    step s = .next (State.hostReadBit { s with schedule := rest } sp i) := by
  simp only [step, h, State.take]

theorem step_hostReadReg {s : State} {sp : RegSpace} {i : Nat} {rest : List RunStep}
    (h : s.schedule = .hostReadReg sp i :: rest) :
    step s = .next (State.hostReadReg { s with schedule := rest } sp i) := by
  simp only [step, h, State.take]

theorem step_hostWriteBit {s : State} {sp : BitSpace} {i : Nat} {v : Bool} {rest : List RunStep}
    (h : s.schedule = .hostWriteBit sp i v :: rest) :
    step s = .next (State.hostWriteBit { s with schedule := rest } sp i v) := by
  simp only [step, h, State.take]

theorem step_hostWriteReg {s : State} {sp : RegSpace} {i : Nat} {v : U16} {rest : List RunStep}
    (h : s.schedule = .hostWriteReg sp i v :: rest) :
    step s = .next (State.hostWriteReg { s with schedule := rest } sp i v) := by
  simp only [step, h, State.take]

/-- What a transaction leaves in the store. -/
theorem respond_store (s : State) (out : Except Failure Reply) :
    (s.respond out).store = match out with | .ok r => r.2 | .error _ => s.store := by
  cases out <;> rfl

/-- The transaction's outcome does not fail exactly where the parser accepts and the handler does not fail. -/
theorem outcomeOf_ok {req : List Byte} {s : State} {r : Reply} (h : outcomeOf req s = .ok r) :
    (parse req).2 = none ∧ handle (decodePayload (parse req).1.fc (parse req).1.payload) s = .ok r := by
  simp only [outcomeOf] at h
  split at h
  · cases h
  · rename_i hp; exact ⟨hp, h⟩

end Sys2Proof.Machine
end

