-- ==== Sys2Proof/Tests/Slice0.lean ====
section
/-! SUPPORT. Tests on fixed values. The expected bytes are those of spec/95_test_vectors.md, or of the rule a test names; each
test is about one step. At the end, for every statement with hypotheses, a state and operands that meet them. -/

namespace Sys2Proof.Tests

open Sys2Proof.Machine

/-- The parameters of the test vectors: `N = 1000`, `IDENT_BYTES = []` (spec/95_test_vectors.md). -/
def vectorParams : Params where
  size := 1000
  identBytes := []
  size_pos := by decide
  ident_bound := by decide

/-- The block of the test vectors after reset, with these steps presented. -/
def block (steps : List RunStep) : State := { State.reset with params := vectorParams, schedule := steps }

/-- The same block with this store. -/
def blockWith (store : Store) (steps : List RunStep) : State := { block steps with store := store }

/-- The response after one step; the empty list where the step does not answer a next state. -/
def responseOf (s : State) : List Byte :=
  match step s with
  | .next t => t.rsp
  | _ => []

/-- The store after one step; the store before it where the step does not answer a next state. -/
def storeOf (s : State) : Store :=
  match step s with
  | .next t => t.store
  | _ => s.store

/-! ### Decoding: words written out from rules R93 to R96, R101 -/

theorem test_decode_rdcoils : decode [0x01, 0x12, 0x34, 0x00, 0x08] = .ok (.rdcoils (.fields 0x1234 0x0008)) := rfl
theorem test_decode_rddisc : decode [0x02, 0x00, 0x07, 0x01, 0x00] = .ok (.rddisc (.fields 0x0007 0x0100)) := rfl
theorem test_decode_rdhold : decode [0x03, 0xFF, 0xFE, 0x00, 0x02] = .ok (.rdhold (.fields 0xFFFE 0x0002)) := rfl
theorem test_decode_rdinput : decode [0x04, 0x03, 0xE7, 0x00, 0x01] = .ok (.rdinput (.fields 0x03E7 0x0001)) := rfl
theorem test_decode_wrcoil : decode [0x05, 0x00, 0x05, 0xFF, 0x00] = .ok (.wrcoil (.fields 0x0005 0xFF00)) := rfl
theorem test_decode_wrreg : decode [0x06, 0x01, 0x00, 0xAB, 0xCD] = .ok (.wrreg (.fields 0x0100 0xABCD)) := rfl
theorem test_decode_wrcoils : decode [0x0F, 0x00, 0x03, 0x00, 0x0A, 0x02, 0xCD, 0x01] =
    .ok (.wrcoils (.fields 0x0003 0x000A 0x02 [0xCD, 0x01])) := rfl
theorem test_decode_wrregs : decode [0x10, 0x00, 0x01, 0x00, 0x02, 0x04, 0x00, 0x0A, 0x01, 0x02] =
    .ok (.wrregs (.fields 0x0001 0x0002 0x04 [0x00, 0x0A, 0x01, 0x02])) := rfl
theorem test_decode_reportid : decode [0x11, 0xAA, 0xBB] = .ok (.reportid [0xAA, 0xBB]) := rfl
theorem test_decode_illegal : decode [0x99, 0x01] = .ok (.illegal 0x99 [0x01]) := rfl
theorem test_decode_empty : decode [] = .error .missingFunctionCode := rfl
theorem test_decode_range_three_bytes : decode [0x01, 0x00, 0x00, 0x00] = .ok (.rdcoils (.badLength [0x00, 0x00, 0x00])) := rfl
theorem test_decode_range_five_bytes : decode [0x03, 0x00, 0x00, 0x00, 0x01, 0x00] =
    .ok (.rdhold (.badLength [0x00, 0x00, 0x00, 0x01, 0x00])) := rfl
theorem test_decode_multi_four_bytes : decode [0x0F, 0x00, 0x00, 0x00, 0x01] =
    .ok (.wrcoils (.tooShort [0x00, 0x00, 0x00, 0x01])) := rfl
theorem test_encode_frame : encodeFrame ⟨0x0009, 0x0000, 0x01⟩ (.wrcoil (.fields 0x0005 0xFF00)) =
    [0x00, 0x09, 0x00, 0x00, 0x00, 0x06, 0x01, 0x05, 0x00, 0x05, 0xFF, 0x00] := by decide
theorem test_table_word_wrregs : decodeTableWord 8 0x10 = some (.wrregs (.fields 0 0 0 [])) := rfl
theorem test_table_word_reset_runs : responseOf (State.reset.withFetchWord 8 0x01) =
    [0x00, 0x00, 0x00, 0x00, 0x00, 0x03, 0x01, 0x01, 0x00] := by decide

/-! ### WellFormed refuses a term that breaks each check -/

theorem test_wf_range_bad_length_of_four : (Instr.rdcoils (.badLength [0, 0, 0, 0])).WellFormed = false := by decide
theorem test_wf_single_bad_length_of_four : (Instr.wrreg (.badLength [0, 0, 0, 0])).WellFormed = false := by decide
theorem test_wf_multi_short_of_five : (Instr.wrcoils (.tooShort [0, 0, 0, 0, 0])).WellFormed = false := by decide
theorem test_wf_illegal_of_supported : (Instr.illegal 0x03 []).WellFormed = false := by decide
theorem test_wf_payload_too_long (l : List Byte) (h : maxPayload < l.length) : (Instr.reportid l).WellFormed = false := by
  simp only [Instr.WellFormed, decide_eq_false_iff_not]; omega
theorem test_wf_range_too_long (l : List Byte) (h : maxPayload < l.length) : (Instr.rdhold (.badLength l)).WellFormed = false := by
  simp only [Instr.WellFormed, RangeOperand.WellFormed, decide_eq_false (show ¬ l.length ≤ maxPayload by omega), Bool.and_false]
theorem test_wf_single_too_long (l : List Byte) (h : maxPayload < l.length) : (Instr.wrcoil (.badLength l)).WellFormed = false := by
  simp only [Instr.WellFormed, SingleOperand.WellFormed, decide_eq_false (show ¬ l.length ≤ maxPayload by omega), Bool.and_false]
theorem test_wf_multi_too_long (l : List Byte) (h : maxPayload < 5 + l.length) :
    (Instr.wrregs (.fields 0 0 0 l)).WellFormed = false := by
  simp only [Instr.WellFormed, MultiOperand.WellFormed, decide_eq_false_iff_not]; omega
theorem test_wf_illegal_too_long (l : List Byte) (h : maxPayload < l.length) : (Instr.illegal 0x07 l).WellFormed = false := by
  simp only [Instr.WellFormed, decide_eq_false (show ¬ l.length ≤ maxPayload by omega), Bool.and_false]

/-! ### The parser: vectors F-1, F-5, F-7 and S6 -/

theorem test_empty_request : responseOf (block [.transaction []]) =
    [0x00, 0x00, 0x00, 0x00, 0x00, 0x03, 0x00, 0x80, 0x04] := by decide
theorem test_length_mismatch : responseOf (block [.transaction
    [0x12, 0x34, 0x00, 0x05, 0x00, 0x07, 0x07, 0x03, 0x00, 0x00, 0x00, 0x01]]) =
    [0x12, 0x34, 0x00, 0x05, 0x00, 0x03, 0x00, 0x80, 0x04] := by decide
theorem test_missing_function_code : responseOf (block [.transaction [0xAB, 0xCD, 0x00, 0x00, 0x00, 0x01, 0x09]]) =
    [0xAB, 0xCD, 0x00, 0x00, 0x00, 0x03, 0x09, 0x80, 0x04] := by decide
theorem test_truncated_request : responseOf (block [.transaction
    [0x79, 0x56, 0x00, 0x00, 0x00, 0x06, 0x01, 0x0F, 0x00, 0x16]]) =
    [0x79, 0x56, 0x00, 0x00, 0x00, 0x03, 0x00, 0x80, 0x04] := by decide

/-! ### The codec: vector S1 -/

theorem test_pack : pack [true, false, true, true, false, false, true, true, true, false] = [0xCD, 0x01] := by decide
theorem test_pack_seventeen : pack (List.replicate 17 true) = [0xFF, 0xFF, 0x01] := by decide
theorem test_unpack : unpack [0xCD, 0x01] 10 =
    [true, false, true, true, false, false, true, true, true, false] := by decide

/-! ### The function codes -/

/-- Program P1, step 2: coil 5 is bit 5 (0x20). -/
theorem test_rdcoils_packs_lsb_first : responseOf (blockWith { Store.zero with co := [(5, true)] }
    [.transaction [0x00, 0x02, 0x00, 0x00, 0x00, 0x06, 0x01, 0x01, 0x00, 0x00, 0x00, 0x08]]) =
    [0x00, 0x02, 0x00, 0x00, 0x00, 0x04, 0x01, 0x01, 0x01, 0x20] := by decide
/-- Vector R-6: no 16-bit wrap. -/
theorem test_rdcoils_does_not_wrap : responseOf (block
    [.transaction [0x00, 0x03, 0x00, 0x00, 0x00, 0x06, 0x01, 0x01, 0xFF, 0xFF, 0x00, 0x02]]) =
    [0x00, 0x03, 0x00, 0x00, 0x00, 0x03, 0x01, 0x81, 0x02] := by decide
/-- The example of rule R171. -/
theorem test_rddisc_nine_inputs : responseOf (blockWith { Store.zero with di := [(0, true), (7, true), (8, true)] }
    [.transaction [0x00, 0x22, 0x00, 0x00, 0x00, 0x06, 0x07, 0x02, 0x00, 0x00, 0x00, 0x09]]) =
    [0x00, 0x22, 0x00, 0x00, 0x00, 0x05, 0x07, 0x02, 0x02, 0x81, 0x01] := by decide
/-- Discrete inputs are not coils (rule R69). -/
theorem test_rddisc_does_not_read_coils : responseOf (blockWith { Store.zero with co := [(0, true)] }
    [.transaction [0x00, 0x04, 0x00, 0x00, 0x00, 0x06, 0x01, 0x02, 0x00, 0x00, 0x00, 0x01]]) =
    [0x00, 0x04, 0x00, 0x00, 0x00, 0x04, 0x01, 0x02, 0x01, 0x00] := by decide
/-- Program P2, step 3. -/
theorem test_rdhold_big_endian : responseOf (blockWith { Store.zero with hr := [(10, 0x1234), (11, 0xFFFF), (12, 0x0001)] }
    [.transaction [0x00, 0x12, 0x00, 0x00, 0x00, 0x06, 0x01, 0x03, 0x00, 0x0A, 0x00, 0x03]]) =
    [0x00, 0x12, 0x00, 0x00, 0x00, 0x09, 0x01, 0x03, 0x06, 0x12, 0x34, 0xFF, 0xFF, 0x00, 0x01] := by decide
/-- Vector R-13: the byte count would be 256. -/
theorem test_rdhold_byte_count_overflow : responseOf (block
    [.transaction [0x00, 0x05, 0x00, 0x00, 0x00, 0x06, 0x01, 0x03, 0x00, 0x00, 0x00, 0x80]]) =
    [0x00, 0x05, 0x00, 0x00, 0x00, 0x03, 0x01, 0x83, 0x04] := by decide +kernel
/-- Program P3, step 4. -/
theorem test_rdinput_last_register : responseOf (blockWith { Store.zero with ir := [(999, 0xBEEF)] }
    [.transaction [0x00, 0x23, 0x00, 0x00, 0x00, 0x06, 0x07, 0x04, 0x03, 0xE7, 0x00, 0x01]]) =
    [0x00, 0x23, 0x00, 0x00, 0x00, 0x05, 0x07, 0x04, 0x02, 0xBE, 0xEF] := by decide
/-- Vector R-17. -/
theorem test_rdinput_out_of_range : responseOf (block
    [.transaction [0x00, 0x06, 0x00, 0x00, 0x00, 0x06, 0x01, 0x04, 0x03, 0xE7, 0x00, 0x02]]) =
    [0x00, 0x06, 0x00, 0x00, 0x00, 0x03, 0x01, 0x84, 0x02] := by decide
/-- Vector W-2: any value but 0xFF00 clears the coil and is echoed. -/
theorem test_wrcoil_clears : storeOf (blockWith { Store.zero with co := [(5, true)] }
    [.transaction [0x00, 0x09, 0x00, 0x00, 0x00, 0x06, 0x01, 0x05, 0x00, 0x05, 0x12, 0x34]]) = Store.zero := by decide
theorem test_wrcoil_echoes : responseOf (block
    [.transaction [0x00, 0x09, 0x00, 0x00, 0x00, 0x06, 0x01, 0x05, 0x00, 0x05, 0x12, 0x34]]) =
    [0x00, 0x09, 0x00, 0x00, 0x00, 0x06, 0x01, 0x05, 0x00, 0x05, 0x12, 0x34] := by decide
/-- Vectors W-8 and W-7. -/
theorem test_wrreg_last_register : storeOf (block
    [.transaction [0x00, 0x0A, 0x00, 0x00, 0x00, 0x06, 0x01, 0x06, 0x03, 0xE7, 0xFF, 0xFF]]) =
    { Store.zero with hr := [(999, 0xFFFF)] } := by decide
theorem test_wrreg_out_of_range : responseOf (block
    [.transaction [0x00, 0x0A, 0x00, 0x00, 0x00, 0x06, 0x01, 0x06, 0x03, 0xE8, 0x00, 0x01]]) =
    [0x00, 0x0A, 0x00, 0x00, 0x00, 0x03, 0x01, 0x86, 0x02] := by decide
/-- Vectors M-4 (a surplus byte is ignored) and M-3. -/
theorem test_wrcoils_unpacks : storeOf (block [.transaction
    [0x00, 0x0B, 0x00, 0x00, 0x00, 0x0A, 0x01, 0x0F, 0x00, 0x03, 0x00, 0x0A, 0x03, 0xCD, 0x01, 0xFF]]) =
    { Store.zero with co := [(3, true), (5, true), (6, true), (9, true), (10, true), (11, true)] } := by decide
theorem test_wrcoils_too_few_bits : responseOf (block [.transaction
    [0x00, 0x0B, 0x00, 0x00, 0x00, 0x08, 0x01, 0x0F, 0x00, 0x03, 0x00, 0x0A, 0x01, 0xCD]]) =
    [0x00, 0x0B, 0x00, 0x00, 0x00, 0x03, 0x01, 0x8F, 0x04] := by decide
/-- Vectors M-9 and M-10. -/
theorem test_wrregs_big_endian : storeOf (block [.transaction
    [0x00, 0x0C, 0x00, 0x00, 0x00, 0x0B, 0x01, 0x10, 0x00, 0x01, 0x00, 0x02, 0x04, 0x00, 0x0A, 0x01, 0x02]]) =
    { Store.zero with hr := [(1, 0x000A), (2, 0x0102)] } := by decide
theorem test_wrregs_wrong_byte_count : responseOf (block [.transaction
    [0x00, 0x0C, 0x00, 0x00, 0x00, 0x0A, 0x01, 0x10, 0x00, 0x01, 0x00, 0x02, 0x03, 0x00, 0x0A, 0x01]]) =
    [0x00, 0x0C, 0x00, 0x00, 0x00, 0x03, 0x01, 0x90, 0x04] := by decide
/-- Vector X-3, with `IDENT_BYTES = [0x41, 0x42]`. -/
theorem test_reportid_identification : responseOf { block [.transaction [0x00, 0x0D, 0x00, 0x00, 0x00, 0x02, 0x11, 0x11]] with
    params := ⟨1000, [0x41, 0x42], by decide, by decide⟩ } =
    [0x00, 0x0D, 0x00, 0x00, 0x00, 0x07, 0x11, 0x11, 0x04, 0x11, 0xFF, 0x41, 0x42] := by decide
/-- Vector X-2: the payload is ignored. -/
theorem test_reportid_ignores_payload : responseOf (block
    [.transaction [0x00, 0x0D, 0x00, 0x00, 0x00, 0x05, 0x22, 0x11, 0xAA, 0xBB, 0xCC]]) =
    [0x00, 0x0D, 0x00, 0x00, 0x00, 0x05, 0x22, 0x11, 0x02, 0x22, 0xFF] := by decide
/-- Vectors X-4 (the OR, not a sum) and X-8 (the payload is not examined). -/
theorem test_illegal_ors : responseOf (block [.transaction [0x00, 0x0E, 0x00, 0x00, 0x00, 0x02, 0x01, 0x99]]) =
    [0x00, 0x0E, 0x00, 0x00, 0x00, 0x03, 0x01, 0x99, 0x01] := by decide
theorem test_illegal_before_shape : responseOf (block [.transaction [0x00, 0x0E, 0x00, 0x00, 0x00, 0x03, 0x01, 0x08, 0x00]]) =
    [0x00, 0x0E, 0x00, 0x00, 0x00, 0x03, 0x01, 0x88, 0x01] := by decide

/-! ### The host, reset and the notation -/

theorem test_host_writes_input_register : storeOf (block [.hostWriteReg .ir 999 0xBEEF]) =
    { Store.zero with ir := [(999, 0xBEEF)] } := by decide
theorem test_host_write_outside : storeOf (block [.hostWriteBit .di 1000 true]) = Store.zero := by decide
theorem test_reset_clears : storeOf (blockWith { Store.zero with hr := [(1, 7)] } [.reset]) = Store.zero := by decide
/-- Program P2, step 1, and program P4, step 1. -/
theorem test_assemble_wrregs : assemble ⟨0x0010, 0x0000, 0x01⟩ (.wrregs 10 [0x1234, 0xABCD, 0x0001]) =
    some [0x00, 0x10, 0x00, 0x00, 0x00, 0x0D, 0x01, 0x10, 0x00, 0x0A, 0x00, 0x03, 0x06, 0x12, 0x34, 0xAB, 0xCD, 0x00, 0x01] := by
  decide
theorem test_assemble_wrbits : assemble ⟨0x0030, 0x0000, 0x01⟩ (.wrbits 0 [true, false, true]) =
    some [0x00, 0x30, 0x00, 0x00, 0x00, 0x08, 0x01, 0x0F, 0x00, 0x00, 0x00, 0x03, 0x01, 0x05] := by decide

/-! ### Witnesses: states and operands that meet the hypotheses of each statement that has any -/

/-- A block inside a transaction on function code `fc`, with the test vectors' header. -/
def inTransaction (fc : Byte) : State := { block [] with latches := ⟨0x0001, 0x0000, 0x0006, 0x01, fc, []⟩ }

/-- The same with a block of 5000 elements, where a bit read can be in range and over the byte count. -/
def inLargeTransaction (fc : Byte) : State :=
  { inTransaction fc with params := ⟨5000, [], by decide, by decide⟩ }

/-- A whole request, `RDHOLD 0, 1`. -/
def readRequest : List Byte := [0x00, 0x01, 0x00, 0x00, 0x00, 0x06, 0x01, 0x03, 0x00, 0x00, 0x00, 0x01]

/-- A whole request that fails, `RDHOLD 1000, 1`. -/
def failingRequest : List Byte := [0x00, 0x01, 0x00, 0x00, 0x00, 0x06, 0x01, 0x03, 0x03, 0xE8, 0x00, 0x01]

theorem witness_DecodeInvertsEncode : (Instr.wrcoils (.fields 3 10 2 [0xCD, 0x01])).WellFormed = true := by decide
theorem witness_EncodeInvertsDecode : decode [0x05, 0x00, 0x05, 0xFF, 0x00] = .ok (.wrcoil (.fields 5 0xFF00)) := rfl
theorem witness_DecodedInstructionIsWellFormed : 1 + [0x07#8].length ≤ 65535 ∧ decode [0x07] = .ok (.illegal 0x07 []) :=
  ⟨by decide, rfl⟩
theorem witness_FrameRoundTrip : (Instr.wrregs (.fields 1 1 2 [0x00, 0x0A])).WellFormed = true := by decide
theorem witness_AcceptedFrame : decodeFrame readRequest = .ok (⟨1, 0, 1⟩, .rdhold (.fields 0 1)) := rfl
theorem witness_FunctionCodeAloneSelects : (0x07 : Byte) ∉ supportedCodes := by decide
theorem witness_TooShortRequest : (block [.transaction [0x12, 0x34, 0x00, 0x00, 0x00, 0x01]]).schedule =
    .transaction [0x12, 0x34, 0x00, 0x00, 0x00, 0x01] :: [] ∧ [0x12#8, 0x34, 0x00, 0x00, 0x00, 0x01].length < 7 := ⟨rfl, by decide⟩
theorem witness_LengthMismatch : (block [.transaction (0x12 :: 0x34 :: 0x00 :: 0x00 :: 0x00 :: 0x02 :: 0x07 :: [0x03, 0x00])]).schedule =
    .transaction (0x12 :: 0x34 :: 0x00 :: 0x00 :: 0x00 :: 0x02 :: 0x07 :: [0x03, 0x00]) :: [] ∧
    7 + [0x03#8, 0x00].length ≠ 6 + ((0x00#8).toNat * 256 + (0x02#8).toNat) := ⟨rfl, by decide⟩
theorem witness_MissingFunctionCode : (block [.transaction [0xAB, 0xCD, 0x00, 0x00, 0x00, 0x01, 0x09]]).schedule =
    .transaction [0xAB, 0xCD, 0x00, 0x00, 0x00, 0x01, 0x09] :: [] ∧
    decodeFrame [0xAB, 0xCD, 0x00, 0x00, 0x00, 0x01, 0x09] = .error .missingFunctionCode := ⟨rfl, rfl⟩
theorem witness_FrameLevelFailure : (block [.transaction [0x12]]).schedule = .transaction [0x12] :: [] ∧
    decodeFrame [0x12] = .error .tooShort := ⟨rfl, rfl⟩
/-- For StepRunsDecodedInstruction, AcceptedHeaderIsEchoed and the last clause of ResponseFrameLayout. -/
theorem witness_AcceptedRequest : (block [.transaction readRequest]).schedule = .transaction readRequest :: [] ∧
    decodeFrame readRequest = .ok (⟨1, 0, 1⟩, .rdhold (.fields 0 1)) := ⟨rfl, rfl⟩
theorem witness_AcceptedFailure : ∃ t, (block [.transaction failingRequest]).schedule = .transaction failingRequest :: [] ∧
    decodeFrame failingRequest = .ok (⟨1, 0, 1⟩, .rdhold (.fields 1000 1)) ∧
    step (block [.transaction failingRequest]) = .next t ∧ isException t.rsp = true := ⟨_, rfl, rfl, rfl, by decide⟩
theorem witness_HeaderDoesNotChangeTreatment : (Instr.reportid []).WellFormed = true := by decide
/-- For the two bit reads: the last coil, and the most coils that fit, in a block that holds them. -/
theorem witness_BitReads : (999#16).toNat + (1#16).toNat ≤ (inTransaction 0x01).params.size ∧ (1#16).toNat ≤ 2040 ∧
    (0#16).toNat + (2040#16).toNat ≤ (inLargeTransaction 0x01).params.size ∧ (2040#16).toNat ≤ 2040 := by decide
/-- For the two register reads. -/
theorem witness_RegisterReads : (873#16).toNat + (127#16).toNat ≤ (inTransaction 0x03).params.size ∧ (127#16).toNat ≤ 127 := by
  decide
/-- For the two single writes: the last address. -/
theorem witness_SingleWrites : (inTransaction 0x05).store.wf (inTransaction 0x05).params.size = true ∧
    (999#16).toNat < (inTransaction 0x05).params.size := by decide
theorem witness_WriteMultipleCoils : (inTransaction 0x0F).store.wf (inTransaction 0x0F).params.size = true ∧
    (2#8).toNat = [0xCD#8, 0x01].length ∧ (10#16).toNat ≤ 8 * (2#8).toNat ∧
    (990#16).toNat + (10#16).toNat ≤ (inTransaction 0x0F).params.size := by decide
theorem witness_WriteMultipleRegisters : (inTransaction 0x10).store.wf (inTransaction 0x10).params.size = true ∧
    (2#8).toNat = 2 * (1#16).toNat ∧ (2#8).toNat = [0x00#8, 0x0A].length ∧
    (999#16).toNat + (1#16).toNat ≤ (inTransaction 0x10).params.size := by decide
theorem witness_UnsupportedRequest : (0x99 : Byte) ∉ supportedCodes ∧ 1 + (0x99#8 :: []).length ≤ 65535 ∧
    (block [.transaction (frameOfPdu ⟨14, 0, 1⟩ (0x99 :: []))]).schedule =
      .transaction (frameOfPdu ⟨14, 0, 1⟩ (0x99 :: [])) :: [] := ⟨by decide, by decide, rfl⟩
theorem witness_OutOfRangeReads : (inTransaction 0x01).params.size < (1000#16).toNat + (1#16).toNat ∧
    (inTransaction 0x01).latches.fc = 0x01 ∧ (inTransaction 0x02).latches.fc = 0x02 ∧
    (inTransaction 0x03).latches.fc = 0x03 ∧ (inTransaction 0x04).latches.fc = 0x04 := by decide
theorem witness_OutOfRangeSingleWrites : (inTransaction 0x05).params.size ≤ (1000#16).toNat ∧
    (inTransaction 0x05).latches.fc = 0x05 ∧ (inTransaction 0x06).latches.fc = 0x06 := by decide
theorem witness_OutOfRangeMultipleWrites : (inTransaction 0x0F).params.size < (999#16).toNat + (2#16).toNat ∧
    (1#8).toNat = [0x03#8].length ∧ (inTransaction 0x0F).latches.fc = 0x0F ∧ (2#16).toNat ≤ 8 * (1#8).toNat ∧
    (4#8).toNat = [0x00#8, 0x0A, 0x01, 0x02].length ∧ (inTransaction 0x10).latches.fc = 0x10 ∧
    (4#8).toNat = 2 * (2#16).toNat := by decide
/-- The four shape failures with fields: each inequality alone. -/
theorem witness_MalformedPayloads : (inTransaction 0x0F).latches.fc = 0x0F ∧ (3#8).toNat ≠ [0xCD#8, 0x01].length ∧
    8 * (1#8).toNat < (9#16).toNat ∧ (inTransaction 0x10).latches.fc = 0x10 ∧ (3#8).toNat ≠ 2 * (2#16).toNat ∧
    (4#8).toNat ≠ [0x00#8, 0x0A, 0x01].length := by decide
/-- Both sides of each limit, in range. -/
theorem witness_ReadFailsExactlyOverByteCount :
    (0#16).toNat + (2041#16).toNat ≤ (inLargeTransaction 0x01).params.size ∧ 2040 < (2041#16).toNat ∧
    (0#16).toNat + (2040#16).toNat ≤ (inLargeTransaction 0x02).params.size ∧ ¬ 2040 < (2040#16).toNat ∧
    (0#16).toNat + (128#16).toNat ≤ (inTransaction 0x03).params.size ∧ 127 < (128#16).toNat ∧
    (0#16).toNat + (127#16).toNat ≤ (inTransaction 0x04).params.size ∧ ¬ 127 < (127#16).toNat := by decide
theorem witness_ExceptionEncoder : Failure.tooShort ≠ .illegalFunction ∧ Failure.tooShort ≠ .illegalDataAddress ∧
    (0x7F : Byte) < 0x80 ∧ (0x80 : Byte) ≤ 0x80 := by decide
/-- For ExactlyThreeExceptionCodes, FailedTransactionsChangeNothing and the last clause of ExceptionEncoderOrsAndCodes. -/
theorem witness_FailedTransaction : ∃ t, (block [.transaction failingRequest]).schedule = .transaction failingRequest :: [] ∧
    step (block [.transaction failingRequest]) = .next t ∧ isException t.rsp = true := ⟨_, rfl, rfl, by decide⟩
theorem witness_CoilValue : (0xFF00 : U16) = 0xFF00 ∧ (0xFF01 : U16) ≠ 0xFF00 := by decide
theorem witness_PackPlacesBits : 8 < (List.replicate 9 true).length ∧ (List.replicate 9 true).length ≤ 9 ∧
    9 < 8 * (pack (List.replicate 9 true)).length := by decide
theorem witness_ResponseFrame : [0x03#8, 0x00].length ≤ 65534 := by decide
/-- For EveryRequestGetsOneResponse and NoRequestWritesReadOnlySpaces. -/
theorem witness_Transaction : ∃ t, (block [.transaction [0x12]]).schedule = .transaction [0x12] :: [] ∧
    step (block [.transaction [0x12]]) = .next t := ⟨_, rfl, rfl⟩
theorem witness_EveryStepKeepsInvariant : ∃ t, State.Inv (blockWith { Store.zero with co := [(5, true)] } [.transaction readRequest]) ∧
    step (blockWith { Store.zero with co := [(5, true)] } [.transaction readRequest]) = .next t :=
  ⟨_, ⟨by decide, rfl, rfl, .inl rfl, fun e he => absurd he (List.not_mem_nil)⟩, rfl⟩
theorem witness_ResetStore : 999 < State.reset.params.size := by decide
theorem witness_OnlyNamedElementsChange : ∃ t, (block [.hostWriteReg .hr 3 7]).store.wf (block [.hostWriteReg .hr 3 7]).params.size = true ∧
    (block [.hostWriteReg .hr 3 7]).schedule = .hostWriteReg .hr 3 7 :: [] ∧ step (block [.hostWriteReg .hr 3 7]) = .next t ∧
    (RunStep.hostWriteReg .hr 3 7).namesHolding 4 = false ∧ (RunStep.hostWriteReg .hr 3 7).namesCoil 3 = false :=
  ⟨_, by decide, rfl, rfl, by decide, by decide⟩
theorem witness_ParametersNeverChange : ∃ t, step (block [.reset]) = .next t := ⟨_, rfl⟩
theorem witness_TransactionsAreDeterministic : ∃ t t', (block [.transaction readRequest]).params = (block [.transaction readRequest, .reset]).params ∧
    (block [.transaction readRequest]).store = (block [.transaction readRequest, .reset]).store ∧
    (block [.transaction readRequest]).schedule = .transaction readRequest :: [] ∧
    (block [.transaction readRequest, .reset]).schedule = .transaction readRequest :: [.reset] ∧
    step (block [.transaction readRequest]) = .next t ∧ step (block [.transaction readRequest, .reset]) = .next t' :=
  ⟨_, _, rfl, rfl, rfl, rfl, rfl, rfl⟩

/-- `WRREGS 0, 0x000A`, with one step between it and the read of register 0. -/
def holdingRun : List RunStep :=
  .transaction [0x00, 0x0C, 0x00, 0x00, 0x00, 0x09, 0x01, 0x10, 0x00, 0x00, 0x00, 0x01, 0x02, 0x00, 0x0A] ::
    ([.hostWriteReg .hr 1 7] ++ .transaction (encodeFrame ⟨1, 0, 1⟩ (.rdhold (.fields 0 1))) :: [])

/-- Both writing forms: 0x10 in the run, 0x06 beside it. -/
theorem witness_HoldingWriteThenRead : (block holdingRun).store.wf (block holdingRun).params.size = true ∧
    decodeFrame [0x00, 0x0C, 0x00, 0x00, 0x00, 0x09, 0x01, 0x10, 0x00, 0x00, 0x00, 0x01, 0x02, 0x00, 0x0A] =
      .ok (⟨12, 0, 1⟩, .wrregs (.fields 0 1 2 [0x00, 0x0A])) ∧
    Instr.putsHolding (block holdingRun).params.size (0#16).toNat (.wrregs (.fields 0 1 2 [0x00, 0x0A])) = some 0x000A ∧
    Instr.putsHolding (block holdingRun).params.size (999#16).toNat (.wrreg (.fields 999 7)) = some 7 ∧
    (∀ m ∈ [RunStep.hostWriteReg .hr 1 7], m.namesHolding (0#16).toNat = false) ∧
    (block holdingRun).schedule = .transaction [0x00, 0x0C, 0x00, 0x00, 0x00, 0x09, 0x01, 0x10, 0x00, 0x00, 0x00, 0x01, 0x02, 0x00, 0x0A] ::
      ([.hostWriteReg .hr 1 7] ++ .transaction (encodeFrame ⟨1, 0, 1⟩ (.rdhold (.fields 0 1))) :: []) :=
  ⟨by decide, rfl, by decide, by decide, by decide, rfl⟩

/-- `WRCOIL 5, 0xFF00`, with one step between it and the read of coil 5. -/
def coilRun : List RunStep :=
  .transaction [0x00, 0x09, 0x00, 0x00, 0x00, 0x06, 0x01, 0x05, 0x00, 0x05, 0xFF, 0x00] ::
    ([.hostReadBit .co 5] ++ .transaction (encodeFrame ⟨1, 0, 1⟩ (.rdcoils (.fields 5 1))) :: [])

/-- Both writing forms: 0x05 in the run, 0x0F beside it. -/
theorem witness_CoilWriteThenRead : (block coilRun).store.wf (block coilRun).params.size = true ∧
    decodeFrame [0x00, 0x09, 0x00, 0x00, 0x00, 0x06, 0x01, 0x05, 0x00, 0x05, 0xFF, 0x00] =
      .ok (⟨9, 0, 1⟩, .wrcoil (.fields 5 0xFF00)) ∧
    Instr.putsCoil (block coilRun).params.size (5#16).toNat (.wrcoil (.fields 5 0xFF00)) = some true ∧
    Instr.putsCoil (block coilRun).params.size (4#16).toNat (.wrcoils (.fields 3 10 2 [0xCD, 0x01])) = some false ∧
    (∀ m ∈ [RunStep.hostReadBit .co 5], m.namesCoil (5#16).toNat = false) ∧
    (block coilRun).schedule = .transaction [0x00, 0x09, 0x00, 0x00, 0x00, 0x06, 0x01, 0x05, 0x00, 0x05, 0xFF, 0x00] ::
      ([.hostReadBit .co 5] ++ .transaction (encodeFrame ⟨1, 0, 1⟩ (.rdcoils (.fields 5 1))) :: []) :=
  ⟨by decide, rfl, by decide, by decide, by decide, rfl⟩

theorem witness_MultipleWrites : ∃ t u, (inTransaction 0x0F).store.wf (inTransaction 0x0F).params.size = true ∧
    exec (.wrcoils (.fields 3 10 2 [0xCD, 0x01])) (inTransaction 0x0F) = .next t ∧
    exec (.wrregs (.fields 1 1 2 [0x00, 0x0A])) (inTransaction 0x10) = .next u := ⟨_, _, by decide, rfl, rfl⟩
/-- The last element of each kind of space, read and written. -/
theorem witness_HostAccess : (block []).store.wf (block []).params.size = true ∧ 999 < (block []).params.size ∧
    (block [.hostReadBit .di 999]).schedule = .hostReadBit .di 999 :: [] ∧
    (block [.hostReadReg .ir 999]).schedule = .hostReadReg .ir 999 :: [] ∧
    (block [.hostWriteBit .di 999 true]).schedule = .hostWriteBit .di 999 true :: [] ∧
    (block [.hostWriteReg .ir 999 1]).schedule = .hostWriteReg .ir 999 1 :: [] := by decide
theorem witness_HostAccessOutside : (block [.hostReadBit .co 1000]).params.size ≤ 1000 ∧
    (block [.hostReadBit .co 1000]).schedule = .hostReadBit .co 1000 :: [] := by decide
theorem witness_ResetStep : (block [.reset]).schedule = .reset :: [] := rfl
theorem witness_IdleStep : (block []).schedule = [] := rfl
/-- For AssembledLinesAreTheirInstructions: the list bounds, met at no element and at the longest list, and on both sides
of the length field's limit. -/
theorem witness_AssembledLines : ([] : List Byte).length ≤ 255 ∧ (List.replicate 255 (0x0F : Byte)).length ≤ 255 ∧
    2 * ([] : List U16).length ≤ 255 ∧ 2 * (List.replicate 127 (0x1234 : U16)).length ≤ 255 ∧
    2 + (List.replicate 65533 (0 : Byte)).length ≤ 65535 ∧ 65535 < 2 + (List.replicate 65534 (0 : Byte)).length := by
  simp only [List.length_replicate]
  decide

end Sys2Proof.Tests
end

/-! Proofs of the family `30_encoding.md`: the coil value of Write Single Coil (rule R98). -/

namespace Sys2Proof.Machine

/-- Rule R98 as one equivalence: `COIL_ON` is the only value that sets a coil. -/
@[simp] theorem coilBit_eq_true_iff {value : U16} : coilBit value = true ↔ value = 0xFF00 :=
  beq_iff_eq

@[simp] theorem coilBit_eq_false_iff {value : U16} : coilBit value = false ↔ value ≠ 0xFF00 :=
  Bool.eq_false_iff.trans coilBit_eq_true_iff.not

/-- Settles O33: each half is one direction of the value's equivalence. -/
theorem coilValueDecodesToBit : Obligations.CoilValueDecodesToBit :=
  fun _ => ⟨coilBit_eq_true_iff.mpr, coilBit_eq_false_iff.mpr⟩

end Sys2Proof.Machine

/-! Proofs of the family `40_frame_and_dispatch.md`: where `pack` puts each bit (rules R62, R143), and the layout of a
response frame (rule R146). -/

namespace Sys2Proof.Machine

@[simp] theorem pack_length (bits : List Bool) : (pack bits).length = (bits.length + 7) / 8 := by
  rw [pack, packBytes_length, ceilDiv_eight]

/-- Every bit of the output, padding included: bit `i mod 8` of byte `i div 8` is element `i`, and 0 past the last. -/
theorem pack_bit {bits : List Bool} {i : Nat} (h : i < 8 * (pack bits).length) :
    ((pack bits).getD (i / 8) 0).getLsbD (i % 8) = bits.getD i false := by
  have hbyte : i / 8 < ceilDiv bits.length 8 := by
    rw [pack_length] at h
    rw [ceilDiv_eight]
    omega
  rw [pack, packBytes_bit _ bits _ _ hbyte (Nat.mod_lt i (by decide)), Nat.div_add_mod]

/-- Settles O34: both kinds of bit are instances of `pack_bit`, and the padding reads past the end of the list. -/
theorem packPlacesBitsLsbFirst : Obligations.PackPlacesBitsLsbFirst := by
  intro bits
  refine ⟨pack_length bits, fun i hi => pack_bit ?_, fun i hpast hi => ?_⟩
  · rw [pack_length]
    omega
  · rw [pack_bit hi, List.getD_eq_default bits false hpast]

/-- The length field of a response frame counts the unit and the PDU, where their number fits 16 bits (rule R146). -/
theorem lenField_frame (t p : U16) (u : Byte) {r : List Byte} (h : r.length ≤ 65534) :
    lenField (frame t p u r) = 1 + r.length := by
  calc lenField (frame t p u r)
      = (BitVec.ofNat 16 (1 + r.length) : U16).toNat := by
        rw [← be16_of_bytes (BitVec.ofNat 16 (1 + r.length)), be16_toNat]
        rfl
    _ = 1 + r.length := Nat.mod_eq_of_lt (by omega)

/-- An accepted request: the parser stops at no failure, and the header is what it latched (rule R135). -/
theorem decodeFrame_ok {req : List Byte} {h : Header} {i : Instr} (hd : decodeFrame req = .ok (h, i)) :
    (parse req).2 = none ∧ h = ⟨(parse req).1.tid, (parse req).1.pid, (parse req).1.unit⟩ ∧
      i = decodePayload (parse req).1.fc (parse req).1.payload := by
  unfold decodeFrame at hd
  split at hd
  next => cases hd
  next l hp =>
    cases hd
    simp only [hp, and_self]

/-- Whatever the handler's outcome, the transaction ends in a frame under the latched header. -/
theorem respond_eq_ended (s : State) (out : Except Failure Reply) : ∃ (pdu : List Byte) (st : Store),
    s.respond out = s.ended s.req (frame s.latches.tid s.latches.pid s.latches.unit pdu) st s.schedule := by
  cases out with
  | ok reply => exact ⟨reply.1, reply.2, rfl⟩
  | error k => exact ⟨_, _, rfl⟩

/-- A transaction ends in a frame under the header that the parser latched, whether its request is accepted or not. -/
theorem step_transaction_ended {s : State} {req : List Byte} {rest : List RunStep}
    (hs : s.schedule = .transaction req :: rest) : ∃ (pdu : List Byte) (st : Store),
    step s = .next (s.ended req (frame (parse req).1.tid (parse req).1.pid (parse req).1.unit pdu) st rest) := by
  obtain ⟨pdu, st, hend⟩ := respond_eq_ended (State.load { s with schedule := rest } req)
    (outcomeOf req (State.load { s with schedule := rest } req))
  exact ⟨pdu, st, by rw [step_transaction hs, hend]; rfl⟩

/-- Settles O36: the layout is the builder's own, the length law compares `frame_length` with `lenField_frame`, and the
protocol id is the one latched from the request. -/
theorem responseFrameLayout : Obligations.ResponseFrameLayout := by
  refine ⟨fun t p u r => ⟨rfl, fun hr => ?_⟩, fun s req rest h i hs hd => ?_⟩
  · rw [frame_length, lenField_frame t p u hr]
    omega
  · obtain ⟨_, rfl, _⟩ := decodeFrame_ok hd
    obtain ⟨pdu, st, hstep⟩ := step_transaction_ended hs
    exact ⟨_, _, pdu, st, hstep⟩

end Sys2Proof.Machine

/-! Proofs of the family `43_report_and_unsupported.md`: a whole request with an unsupported function code (rule R221). -/

namespace Sys2Proof.Machine

/-- A frame that can carry its PDU is accepted, and the parser latches the fields the frame was built from (rules R91,
R135). -/
theorem parse_frameOfPdu (h : Header) {fc : Byte} {P : List Byte} (hfit : 1 + (fc :: P).length ≤ 65535) :
    parse (frameOfPdu h (fc :: P)) =
      (⟨h.tid, h.pid, BitVec.ofNat 16 (1 + (fc :: P).length), h.unit, fc, P⟩, none) := by
  have hlen : (BitVec.ofNat 16 (1 + (fc :: P).length)).toNat = 1 + (fc :: P).length := Nat.mod_eq_of_lt (by omega)
  simp only [frameOfPdu, enc16, List.cons_append, List.nil_append]
  rw [parse_accepts, be16_of_bytes, be16_of_bytes, be16_of_bytes]
  rw [be16_of_bytes, hlen, List.length_cons]
  omega

/-- An unsupported function code falls through every arm of the dispatch to the catch-all (rules R101, R140). -/
theorem decodePayload_unsupported {fc : Byte} (hfc : fc ∉ supportedCodes) (P : List Byte) :
    decodePayload fc P = .illegal fc P := by
  have hne (n : Nat) (hn : BitVec.ofNat 8 n ∈ supportedCodes) : fc.toNat ≠ n := fun hcode => by
    rw [← hcode, BitVec.ofNat_toNat, BitVec.setWidth_eq] at hn
    exact hfc hn
  unfold decodePayload
  split
  case h_10 => rfl
  all_goals next hcode => exact absurd hcode (hne _ (by decide))

/-- An accepted request with an unsupported function code fails as an Illegal Function, whatever its payload and the
state (rule R221). -/
theorem outcomeOf_unsupported {req : List Byte} (haccept : (parse req).2 = none)
    (hfc : (parse req).1.fc ∉ supportedCodes) (s : State) : outcomeOf req s = .error .illegalFunction := by
  simp only [outcomeOf, haccept, decodePayload_unsupported hfc, handle]

/-- Settles O26: the frame is accepted with its own fields latched, its function code has no handler, and the exception
is encoded from those latches. -/
theorem unsupportedRequestGetsIllegalFunction : Obligations.UnsupportedRequestGetsIllegalFunction := by
  intro s rest h fc P hfc hfit hs
  have hparse := parse_frameOfPdu h hfit
  have houtcome := outcomeOf_unsupported (by rw [hparse]) (by rwa [hparse])
    (State.load { s with schedule := rest } (frameOfPdu h (fc :: P)))
  rw [step_transaction hs, houtcome, respond_error, takeException_eq_emit, emit_eq_ended, load_latches, hparse]
  rfl

end Sys2Proof.Machine

/-! Proofs of the family `60_exceptions.md`: the Exception Encoder (rules R241, R242), the exception byte of a frame-level
failure (rule R243), and which exception response a transaction can end in. -/

namespace Sys2Proof.Machine

section Encoder

/-- `EXC_FLAG` is bit 7 alone (rule R11). -/
theorem getLsbD_excFlag : ∀ i < 8, excFlag.getLsbD i = decide (i = 7) := by
  decide

/-- Bit 7 of a byte tells on which side of 0x80 it lies. -/
theorem getLsbD_seven (f : Byte) : f.getLsbD 7 = decide (0x80 ≤ f.toNat) :=
  BitVec.msb_eq_decide f

/-- Below 0x80 the flag's bit is free, so the OR is an addition. -/
theorem or_excFlag_of_lt {f : Byte} (hf : f < 0x80) : f ||| excFlag = f + excFlag := by
  have hclear : f.getLsbD 7 = false := by
    rw [getLsbD_seven, decide_eq_false_iff_not]
    exact Nat.not_le.mpr hf
  refine (BitVec.add_eq_or_of_and_eq_zero f excFlag (BitVec.eq_of_getLsbD_eq fun i hi => ?_)).symm
  rw [BitVec.getLsbD_and, getLsbD_excFlag i hi, BitVec.getLsbD_zero]
  by_cases hseven : i = 7
  · rw [hseven, hclear, Bool.false_and]
  · simp only [hseven, decide_false, Bool.and_false]

/-- From 0x80 up the flag's bit is already set. -/
theorem or_excFlag_of_ge {f : Byte} (hf : 0x80 ≤ f) : f ||| excFlag = f := by
  have hset : f.getLsbD 7 = true := by
    rw [getLsbD_seven, decide_eq_true_iff]
    exact hf
  refine BitVec.eq_of_getLsbD_eq fun i hi => ?_
  rw [BitVec.getLsbD_or, getLsbD_excFlag i hi]
  by_cases hseven : i = 7
  · rw [hseven, hset, Bool.true_or]
  · simp only [hseven, decide_false, Bool.or_false]

/-- Every kind but the two with a code of their own has the fallback code (rule R242). -/
theorem exceptionCode_fallback {k : Failure} (hfc : k ≠ .illegalFunction) (haddr : k ≠ .illegalDataAddress) :
    exceptionCode k = 0x04 := by
  cases k with
  | illegalFunction => exact absurd rfl hfc
  | illegalDataAddress => exact absurd rfl haddr
  | _ => rfl

/-- The code of any failure kind is one of three (rule R241). -/
theorem exceptionCode_mem (k : Failure) : exceptionCode k ∈ [(0x01 : Byte), 0x02, 0x04] := by
  by_cases hfc : k = .illegalFunction
  · subst hfc; decide
  by_cases haddr : k = .illegalDataAddress
  · subst haddr; decide
  rw [exceptionCode_fallback hfc haddr]
  decide

end Encoder

section ResponseFrames

/-- The function byte of a frame is the first byte of its PDU, so its bit 7 decides (rule R258). -/
theorem isException_frame_cons (t p : U16) (u f : Byte) (r : List Byte) :
    isException (frame t p u (f :: r)) = f.getLsbD 7 := rfl

/-- The framed PDU of the Exception Encoder is an exception response. -/
theorem isException_frame_encodeException (t p : U16) (u f : Byte) (k : Failure) :
    isException (frame t p u (encodeException f k)) = true := by
  rw [encodeException, isException_frame_cons, BitVec.getLsbD_or, getLsbD_excFlag 7 (by decide)]
  exact Bool.or_true _

/-- The exception code is byte 8 of an exception response (rules R146, R242). -/
theorem frame_encodeException_code (t p : U16) (u f : Byte) (k : Failure) :
    (frame t p u (encodeException f k)).getD 8 0 = exceptionCode k := rfl

/-- A supported function code has bit 7 clear (rules R3, R258). -/
theorem getLsbD_seven_of_supported : ∀ f ∈ supportedCodes, f.getLsbD 7 = false := by
  decide

/-- A handler that does not fail answers no exception response. -/
theorem isException_frame_of_handle_ok {i : Instr} {s : State} {pdu : List Byte} {st : Store}
    (h : handle i s = .ok (pdu, st)) (t p : U16) (u : Byte) : isException (frame t p u pdu) = false := by
  obtain ⟨_, _, hhead, hsupported⟩ := handle_pdu h
  obtain ⟨r, rfl⟩ := List.head?_eq_some_iff.mp hhead
  rw [isException_frame_cons, getLsbD_seven_of_supported _ hsupported]

end ResponseFrames

section LatchedFunctionCode

/-- An instruction decoded from a PDU has the function code it was selected by (rule R100). -/
theorem decodePayload_functionCode (fc : Byte) (P : List Byte) : (decodePayload fc P).functionCode = fc := by
  unfold decodePayload
  split
  case h_10 => rfl
  all_goals next hcode => exact (BitVec.eq_of_toNat_eq hcode).symm

/-- The parser stops before the function code is latched, and at a failure that has the fallback code (rules R38, R136,
R243). -/
theorem parse_rejects {req : List Byte} {k : Failure} (h : (parse req).2 = some k) :
    (parse req).1.fc = 0 ∧ exceptionCode k = 0x04 := by
  obtain hshort | ⟨t1, t0, p1, p0, l1, l0, u, pdu, rfl, hlen | ⟨rfl, hlen⟩ | ⟨fc, P, rfl, hlen⟩⟩ := request_cases req
  · rw [parse_short hshort] at h ⊢
    cases h
    exact ⟨rfl, rfl⟩
  · rw [parse_mismatch hlen] at h ⊢
    cases h
    exact ⟨rfl, rfl⟩
  · rw [parse_missing hlen] at h ⊢
    cases h
    exact ⟨rfl, rfl⟩
  · rw [parse_accepts hlen] at h
    cases h

/-- A request is rejected by the failure that stops the parser. -/
theorem decodeFrame_error {req : List Byte} {k : Failure} (hd : decodeFrame req = .error k) : (parse req).2 = some k := by
  unfold decodeFrame at hd
  split at hd
  next hp =>
    cases hd
    rw [hp]
  next => cases hd

/-- The function code latched from an accepted request is its instruction's (rule R135). -/
theorem parse_fc_of_accepted {req : List Byte} {h : Header} {i : Instr} (hd : decodeFrame req = .ok (h, i)) :
    (parse req).1.fc = i.functionCode := by
  obtain ⟨_, _, rfl⟩ := decodeFrame_ok hd
  exact (decodePayload_functionCode _ _).symm

end LatchedFunctionCode

section Transactions

variable {s : State} {req : List Byte} {rest : List RunStep} {k : Failure}

/-- A transaction that fails ends in the encoded exception under what the parser latched, and changes no element (rules
R242, R248). -/
theorem step_of_outcomeOf_error (hs : s.schedule = .transaction req :: rest)
    (hout : outcomeOf req (State.load { s with schedule := rest } req) = .error k) :
    step s = .next (s.ended req (frame (parse req).1.tid (parse req).1.pid (parse req).1.unit
      (encodeException (parse req).1.fc k)) s.store rest) := by
  rw [step_transaction hs, hout, respond_error, takeException_eq_emit, emit_eq_ended]
  rfl

/-- Only a failure is answered by an exception response: it is the encoded exception of some failure kind, under what the
parser latched. -/
theorem rsp_of_isException {t : State} (hs : s.schedule = .transaction req :: rest) (hstep : step s = .next t)
    (hexc : isException t.rsp = true) :
    ∃ k, t.rsp = frame (parse req).1.tid (parse req).1.pid (parse req).1.unit (encodeException (parse req).1.fc k) := by
  cases hout : outcomeOf req (State.load { s with schedule := rest } req) with
  | error k =>
    rw [step_of_outcomeOf_error hs hout] at hstep
    cases hstep
    exact ⟨k, rfl⟩
  | ok reply =>
    rw [step_transaction hs, hout, respond_ok] at hstep
    cases hstep
    obtain ⟨_, hhandle⟩ := outcomeOf_ok hout
    rw [emit_rsp, isException_frame_of_handle_ok hhandle] at hexc
    cases hexc

end Transactions

/-- Settles O11: the parser's own failure is the outcome, and its exception is encoded from a latch that is still 0. -/
theorem frameLevelFailuresAnswerFunctionZero : Obligations.FrameLevelFailuresAnswerFunctionZero := by
  intro s req rest k hs hd
  have hrejected := decodeFrame_error hd
  obtain ⟨hfc, hcode⟩ := parse_rejects hrejected
  have hout : outcomeOf req (State.load { s with schedule := rest } req) = .error k := by
    simp only [outcomeOf, hrejected]
  have hpdu : encodeException (parse req).1.fc k = [0x80, 0x04] := by
    rw [encodeException, hfc, hcode]
    rfl
  exact ⟨_, _, _, hpdu ▸ step_of_outcomeOf_error hs hout⟩

/-- Settles O31: the encoder and its code map, the OR by the side of 0x80, and the latched function code in both outcomes
of the parser. -/
theorem exceptionEncoderOrsAndCodes : Obligations.ExceptionEncoderOrsAndCodes := by
  refine ⟨fun _ _ => rfl, rfl, rfl, fun _ => exceptionCode_fallback, fun _ => ⟨or_excFlag_of_lt, or_excFlag_of_ge⟩,
    fun s t req rest hs hstep hexc => ?_⟩
  obtain ⟨k, hrsp⟩ := rsp_of_isException hs hstep hexc
  cases hd : decodeFrame req with
  | error k' =>
    rw [(parse_rejects (decodeFrame_error hd)).1] at hrsp
    exact ⟨_, _, _, k, hrsp⟩
  | ok accepted =>
    rw [parse_fc_of_accepted hd] at hrsp
    exact ⟨_, _, _, k, hrsp⟩

/-- The machine after reset with one request presented. -/
def afterReset (req : List Byte) : State := { State.reset with schedule := [.transaction req] }

/-- The code of a failure that some request ends in after reset is emitted. -/
theorem exceptionCode_emitted {req : List Byte} {k : Failure}
    (hout : outcomeOf req (State.load { afterReset req with schedule := [] } req) = .error k) :
    ∃ (s t : State) (req : List Byte) (rest : List RunStep), s.schedule = .transaction req :: rest ∧ step s = .next t ∧
      isException t.rsp = true ∧ t.rsp.getD 8 0 = exceptionCode k :=
  ⟨afterReset req, _, req, [], rfl, step_of_outcomeOf_error rfl hout, isException_frame_encodeException _ _ _ _ k,
    frame_encodeException_code _ _ _ _ k⟩

/-- Settles O32: an exception response has the code of a failure kind; after reset an unsupported function code, a read of
register 1000 of 1000 and the empty request are answered with the three codes. -/
theorem exactlyThreeExceptionCodes : Obligations.ExactlyThreeExceptionCodes := by
  refine ⟨fun s t req rest hs hstep hexc => ?_, fun code hcode => ?_⟩
  · obtain ⟨k, hrsp⟩ := rsp_of_isException hs hstep hexc
    rw [hrsp, frame_encodeException_code]
    exact exceptionCode_mem k
  · simp only [List.mem_cons, List.not_mem_nil, or_false] at hcode
    obtain rfl | rfl | rfl := hcode
    · exact exceptionCode_emitted (req := [0x00, 0x01, 0x00, 0x00, 0x00, 0x02, 0x01, 0x99]) (k := .illegalFunction) rfl
    · exact exceptionCode_emitted (req := [0x00, 0x01, 0x00, 0x00, 0x00, 0x06, 0x01, 0x03, 0x03, 0xE8, 0x00, 0x01])
        (k := .illegalDataAddress) rfl
    · exact exceptionCode_emitted (req := []) (k := .tooShort) rfl

end Sys2Proof.Machine


/-! Proofs of the family `30_encoding.md`: the decoder and the encoder of PDUs invert each other (rules R91 to R102). -/

namespace Sys2Proof

section Operands

/-- Writing out a decoded RANGE payload gives its own bytes, in both forms (rule R93). -/
@[simp] theorem encodeRange_decodeRange (P : List Byte) : encodeRange (decodeRange P) = P := by
  unfold decodeRange
  split
  · simp only [encodeRange, enc16_be16, List.cons_append, List.nil_append]
  · rfl

@[simp] theorem encodeSingle_decodeSingle (P : List Byte) : encodeSingle (decodeSingle P) = P := by
  unfold decodeSingle
  split
  · simp only [encodeSingle, enc16_be16, List.cons_append, List.nil_append]
  · rfl

@[simp] theorem encodeMulti_decodeMulti (P : List Byte) : encodeMulti (decodeMulti P) = P := by
  unfold decodeMulti
  split
  · simp only [encodeMulti, enc16_be16, List.cons_append, List.nil_append]
  · rfl

/-- A well-formed RANGE operand is the one its bytes decode to: the length tells its two forms apart (rule R93). -/
theorem decodeRange_encodeRange {op : RangeOperand} (hw : op.WellFormed = true) : decodeRange (encodeRange op) = op := by
  cases op with
  | fields start qty =>
    simp only [encodeRange, enc16, List.cons_append, List.nil_append, decodeRange, be16_of_bytes]
  | badLength raw =>
    simp only [RangeOperand.WellFormed, Bool.and_eq_true, bne_iff_ne] at hw
    simp only [encodeRange]
    unfold decodeRange
    split
    · exact absurd rfl hw.1
    · rfl

theorem decodeSingle_encodeSingle {op : SingleOperand} (hw : op.WellFormed = true) :
    decodeSingle (encodeSingle op) = op := by
  cases op with
  | fields addr value =>
    simp only [encodeSingle, enc16, List.cons_append, List.nil_append, decodeSingle, be16_of_bytes]
  | badLength raw =>
    simp only [SingleOperand.WellFormed, Bool.and_eq_true, bne_iff_ne] at hw
    simp only [encodeSingle]
    unfold decodeSingle
    split
    · exact absurd rfl hw.1
    · rfl

theorem decodeMulti_encodeMulti {op : MultiOperand} (hw : op.WellFormed = true) : decodeMulti (encodeMulti op) = op := by
  cases op with
  | fields start qty bc data =>
    simp only [encodeMulti, enc16, List.cons_append, List.nil_append, decodeMulti, be16_of_bytes]
  | tooShort raw =>
    simp only [MultiOperand.WellFormed, decide_eq_true_eq] at hw
    simp only [encodeMulti]
    unfold decodeMulti
    split
    · simp only [List.length_cons] at hw
      omega
    · rfl

theorem decodeRange_wellFormed {P : List Byte} (hfit : P.length ≤ maxPayload) : (decodeRange P).WellFormed = true := by
  unfold decodeRange
  split
  · rfl
  next hshape =>
    have hlen : P.length ≠ 4 := fun hfour => by
      obtain ⟨a, b, c, d, rfl⟩ := List.length_eq_four.mp hfour
      exact hshape a b c d rfl
    simp only [RangeOperand.WellFormed, Bool.and_eq_true, bne_iff_ne, decide_eq_true_eq]
    exact ⟨hlen, hfit⟩

theorem decodeSingle_wellFormed {P : List Byte} (hfit : P.length ≤ maxPayload) : (decodeSingle P).WellFormed = true := by
  unfold decodeSingle
  split
  · rfl
  next hshape =>
    have hlen : P.length ≠ 4 := fun hfour => by
      obtain ⟨a, b, c, d, rfl⟩ := List.length_eq_four.mp hfour
      exact hshape a b c d rfl
    simp only [SingleOperand.WellFormed, Bool.and_eq_true, bne_iff_ne, decide_eq_true_eq]
    exact ⟨hlen, hfit⟩

theorem decodeMulti_wellFormed {P : List Byte} (hfit : P.length ≤ maxPayload) : (decodeMulti P).WellFormed = true := by
  unfold decodeMulti
  split
  · simp only [List.length_cons] at hfit
    simp only [MultiOperand.WellFormed, decide_eq_true_eq]
    omega
  next hshape =>
    simp only [MultiOperand.WellFormed, decide_eq_true_eq]
    rcases P with _ | ⟨a, _ | ⟨b, _ | ⟨c, _ | ⟨d, _ | ⟨e, rest⟩⟩⟩⟩⟩
    case cons.cons.cons.cons.cons => exact absurd rfl (hshape a b c d e rest)
    all_goals simp

end Operands

section Pdus

/-- No payload byte is dropped, whatever the function code (rules R93 to R97, R101). -/
@[simp] theorem encodePayload_decodePayload (fc : Byte) (P : List Byte) : encodePayload (decodePayload fc P) = P := by
  unfold decodePayload
  split
  case h_1 | h_2 | h_3 | h_4 => exact encodeRange_decodeRange P
  case h_5 | h_6 => exact encodeSingle_decodeSingle P
  case h_7 | h_8 => exact encodeMulti_decodeMulti P
  case h_9 | h_10 => rfl

theorem mem_supportedCodes {fc : Byte} : fc ∈ supportedCodes ↔ fc = 0x01 ∨ fc = 0x02 ∨ fc = 0x03 ∨ fc = 0x04 ∨
    fc = 0x05 ∨ fc = 0x06 ∨ fc = 0x0F ∨ fc = 0x10 ∨ fc = 0x11 := by
  simp only [supportedCodes, List.mem_cons, List.not_mem_nil, or_false]

/-- The nine codes of the opcode table, each its own constructor (rule R100). -/
theorem decodePayload_supported (P : List Byte) :
    decodePayload 0x01 P = .rdcoils (decodeRange P) ∧ decodePayload 0x02 P = .rddisc (decodeRange P) ∧
    decodePayload 0x03 P = .rdhold (decodeRange P) ∧ decodePayload 0x04 P = .rdinput (decodeRange P) ∧
    decodePayload 0x05 P = .wrcoil (decodeSingle P) ∧ decodePayload 0x06 P = .wrreg (decodeSingle P) ∧
    decodePayload 0x0F P = .wrcoils (decodeMulti P) ∧ decodePayload 0x10 P = .wrregs (decodeMulti P) ∧
    decodePayload 0x11 P = .reportid P :=
  ⟨rfl, rfl, rfl, rfl, rfl, rfl, rfl, rfl, rfl⟩

/-- A well-formed catch-all has an unsupported function code (rule R101). -/
theorem illegal_wellFormed {fc : Byte} {P : List Byte} :
    (Instr.illegal fc P).WellFormed = true ↔ fc ∉ supportedCodes ∧ P.length ≤ maxPayload := by
  simp only [Instr.WellFormed, Bool.and_eq_true, Bool.not_eq_true', List.contains_eq_mem, decide_eq_false_iff_not,
    decide_eq_true_eq]

/-- A well-formed instruction is the one its function code and payload decode to (rules R93 to R101). -/
theorem decodePayload_encodePayload {i : Instr} (hw : i.WellFormed = true) :
    decodePayload i.functionCode (encodePayload i) = i := by
  cases i with
  | rdcoils op => exact congrArg Instr.rdcoils (decodeRange_encodeRange hw)
  | rddisc op => exact congrArg Instr.rddisc (decodeRange_encodeRange hw)
  | rdhold op => exact congrArg Instr.rdhold (decodeRange_encodeRange hw)
  | rdinput op => exact congrArg Instr.rdinput (decodeRange_encodeRange hw)
  | wrcoil op => exact congrArg Instr.wrcoil (decodeSingle_encodeSingle hw)
  | wrreg op => exact congrArg Instr.wrreg (decodeSingle_encodeSingle hw)
  | wrcoils op => exact congrArg Instr.wrcoils (decodeMulti_encodeMulti hw)
  | wrregs op => exact congrArg Instr.wrregs (decodeMulti_encodeMulti hw)
  | reportid ignored => rfl
  | illegal fc unexamined => exact Machine.decodePayload_unsupported (illegal_wellFormed.mp hw).1 unexamined

/-- A payload that a frame can carry decodes to a well-formed instruction under every function code (rules R91, R104). -/
theorem decodePayload_wellFormed {fc : Byte} {P : List Byte} (hfit : P.length ≤ maxPayload) :
    (decodePayload fc P).WellFormed = true := by
  by_cases hfc : fc ∈ supportedCodes
  · obtain rfl | rfl | rfl | rfl | rfl | rfl | rfl | rfl | rfl := mem_supportedCodes.mp hfc
    iterate 4 · exact decodeRange_wellFormed hfit
    iterate 2 · exact decodeSingle_wellFormed hfit
    iterate 2 · exact decodeMulti_wellFormed hfit
    exact decide_eq_true hfit
  · rw [Machine.decodePayload_unsupported hfc]
    exact illegal_wellFormed.mpr ⟨hfc, hfit⟩

/-- What the decoder accepts: every PDU but the empty one (rule R135). -/
theorem decode_eq_ok {pdu : List Byte} {i : Instr} (hd : decode pdu = .ok i) :
    ∃ fc P, pdu = fc :: P ∧ i = decodePayload fc P := by
  cases pdu with
  | nil => cases hd
  | cons fc P =>
    cases hd
    exact ⟨fc, P, rfl, rfl⟩

end Pdus

/-- Settles O1: the function code selects the constructor again, and the payload its operand. -/
theorem decodeInvertsEncode : Obligations.DecodeInvertsEncode :=
  fun _ hw => congrArg Except.ok (decodePayload_encodePayload hw)

/-- Settles O2: the decoded instruction keeps its function code and its payload. -/
theorem encodeInvertsDecode : Obligations.EncodeInvertsDecode := by
  intro pdu i hd
  obtain ⟨fc, P, rfl, rfl⟩ := decode_eq_ok hd
  rw [encode, Machine.decodePayload_functionCode, encodePayload_decodePayload]

/-- Settles O3: the bound on the PDU bounds the payload. -/
theorem decodedInstructionIsWellFormed : Obligations.DecodedInstructionIsWellFormed := by
  intro pdu i hfit hd
  obtain ⟨fc, P, rfl, rfl⟩ := decode_eq_ok hd
  simp only [List.length_cons] at hfit
  refine decodePayload_wellFormed ?_
  simp only [maxPayload]
  omega

/-- Settles O6: the nine codes by the table, every other by the catch-all, and the others counted. -/
theorem functionCodeAloneSelects : Obligations.FunctionCodeAloneSelects :=
  ⟨decodePayload_supported, fun _ P hfc => Machine.decodePayload_unsupported hfc P, by decide +kernel⟩

/-- Settles O7, by running the decoder on the five PDUs. -/
theorem writtenOutWordsDecode : Obligations.WrittenOutWordsDecode :=
  ⟨rfl, rfl, rfl, rfl, rfl⟩

end Sys2Proof


/-! Proofs of the family `40_frame_and_dispatch.md`, first part: which frames the parser accepts and what it reads from
them (rules R91, R92, R131 to R135). -/

namespace Sys2Proof.Machine

section Frames

/-- The PDU of a well-formed instruction fits a frame, whatever its constructor (rules R91, R104). -/
theorem encode_fits {i : Instr} (hw : i.WellFormed = true) : 1 + (encode i).length ≤ 65535 := by
  cases i with
  | rdcoils op => exact Laws.FitsFrame.rdcoils op hw
  | rddisc op => exact Laws.FitsFrame.rddisc op hw
  | rdhold op => exact Laws.FitsFrame.rdhold op hw
  | rdinput op => exact Laws.FitsFrame.rdinput op hw
  | wrcoil op => exact Laws.FitsFrame.wrcoil op hw
  | wrreg op => exact Laws.FitsFrame.wrreg op hw
  | wrcoils op => exact Laws.FitsFrame.wrcoils op hw
  | wrregs op => exact Laws.FitsFrame.wrregs op hw
  | reportid ignored => exact Laws.FitsFrame.reportid ignored hw
  | illegal fc unexamined => exact Laws.FitsFrame.illegal fc unexamined hw

/-- The length field of a request is the u16 in its bytes 4 and 5 (rule R91). -/
theorem lenField_cons (t1 t0 p1 p0 l1 l0 : Byte) (rest : List Byte) :
    lenField (t1 :: t0 :: p1 :: p0 :: l1 :: l0 :: rest) = (be16 l1 l0).toNat :=
  (be16_toNat l1 l0).symm

/-- The frames the parser accepts: a PDU is there and the length field counts it (rules R132, R135). -/
theorem parse_accepted {req : List Byte} (haccept : (parse req).2 = none) : ∃ t1 t0 p1 p0 l1 l0 u fc P,
    req = t1 :: t0 :: p1 :: p0 :: l1 :: l0 :: u :: fc :: P ∧ 8 + P.length = 6 + (be16 l1 l0).toNat := by
  obtain hshort | ⟨t1, t0, p1, p0, l1, l0, u, pdu, rfl, hlen | ⟨rfl, hlen⟩ | ⟨fc, P, rfl, hlen⟩⟩ := request_cases req
  · rw [parse_short hshort] at haccept
    cases haccept
  · rw [parse_mismatch hlen] at haccept
    cases haccept
  · rw [parse_missing hlen] at haccept
    cases haccept
  · exact ⟨t1, t0, p1, p0, l1, l0, u, fc, P, rfl, hlen⟩

/-- The latches after an accepted request, from what it decodes to: the length field counts the unit and the encoded
instruction (rules R38, R91, R135). -/
theorem parse_of_accepted {req : List Byte} {h : Header} {i : Instr} (hd : decodeFrame req = .ok (h, i)) :
    parse req = (⟨h.tid, h.pid, BitVec.ofNat 16 (1 + (encode i).length), h.unit, i.functionCode, encodePayload i⟩,
      none) := by
  obtain ⟨haccept, rfl, rfl⟩ := decodeFrame_ok hd
  obtain ⟨t1, t0, p1, p0, l1, l0, u, fc, P, rfl, hlen⟩ := parse_accepted haccept
  have hcount : BitVec.ofNat 16 (1 + (P.length + 1)) = be16 l1 l0 := by
    rw [show 1 + (P.length + 1) = (be16 l1 l0).toNat by omega, BitVec.ofNat_toNat, BitVec.setWidth_eq]
  simp only [parse_accepts hlen, encode, decodePayload_functionCode, encodePayload_decodePayload, List.length_cons,
    hcount]

/-- The parser stops at the failure that the request is rejected by. -/
theorem decodeFrame_error_iff {req : List Byte} {k : Failure} : decodeFrame req = .error k ↔ (parse req).2 = some k := by
  refine ⟨decodeFrame_error, fun hreject => ?_⟩
  unfold decodeFrame
  split
  next hp =>
    rw [hp] at hreject
    cases hreject
    rfl
  next hp =>
    rw [hp] at hreject
    cases hreject

/-- Settles O4: the frame fits its length field, so the parser latches the fields it was built from. -/
theorem frameRoundTrip : Obligations.FrameRoundTrip := by
  intro h i hw
  have hparse : parse (encodeFrame h i) = _ := parse_frameOfPdu h (encode_fits hw)
  simp only [decodeFrame, hparse, decodePayload_encodePayload hw]

/-- Settles O5: an accepted request has its seven header bytes and a function code. -/
theorem acceptedFrameObeysFrameInvariant : Obligations.AcceptedFrameObeysFrameInvariant := by
  intro req h i hd
  obtain ⟨haccept, _, _⟩ := decodeFrame_ok hd
  obtain ⟨t1, t0, p1, p0, l1, l0, u, fc, P, rfl, hlen⟩ := parse_accepted haccept
  rw [lenField_cons]
  simp only [List.length_cons]
  omega

end Frames

section Rejected

variable {s : State} {req : List Byte} {rest : List RunStep} {k : Failure}

/-- A request that the parser rejects is answered by `80 04` under what was latched, and changes no element (rules R136,
R243). -/
theorem step_of_rejected (hs : s.schedule = .transaction req :: rest) (hreject : (parse req).2 = some k) :
    step s = .next (s.ended req (frame (parse req).1.tid (parse req).1.pid (parse req).1.unit [0x80, 0x04])
      s.store rest) := by
  obtain ⟨hfc, hcode⟩ := parse_rejects hreject
  have hpdu : encodeException (parse req).1.fc k = [0x80, 0x04] := by
    rw [encodeException, hfc, hcode]
    rfl
  rw [← hpdu]
  exact step_of_outcomeOf_error hs (by simp only [outcomeOf, hreject])

/-- A frame around a PDU of two bytes, under header fields read from bytes (rule R146). -/
theorem frame_be16_pair (t1 t0 p1 p0 u a b : Byte) :
    frame (be16 t1 t0) (be16 p1 p0) u [a, b] = [t1, t0, p1, p0, 0x00, 0x03, u, a, b] := by
  have hcount : enc16 (BitVec.ofNat 16 (1 + [a, b].length)) = [0x00, 0x03] :=
    show enc16 (BitVec.ofNat 16 3) = _ by decide
  simp only [frame, enc16_be16, hcount, List.cons_append, List.nil_append]

end Rejected

/-- Settles O8: nothing is latched from a request that is too short. -/
theorem tooShortRequestAnswered : Obligations.TooShortRequestAnswered := by
  intro s req rest hs hshort
  have hparse := parse_short hshort
  rw [step_of_rejected hs (by rw [hparse]), hparse]
  rfl

/-- Settles O9: the parser stops with the transaction and protocol id latched and the unit still 0. -/
theorem lengthMismatchAnswered : Obligations.LengthMismatchAnswered := by
  intro s rest t1 t0 p1 p0 l1 l0 u pdu hs hlen
  have hparse := parse_mismatch (t1 := t1) (t0 := t0) (p1 := p1) (p0 := p0) (u := u) (be16_toNat l1 l0 ▸ hlen)
  rw [step_of_rejected hs (by rw [hparse]), hparse, frame_be16_pair]

/-- The parser misses the function code exactly in the requests of rule R135. -/
theorem parse_missing_iff (req : List Byte) :
    (parse req).2 = some .missingFunctionCode ↔ req.length = 7 ∧ lenField req = 1 := by
  obtain hshort | ⟨t1, t0, p1, p0, l1, l0, u, pdu, rfl, hlen | ⟨rfl, hlen⟩ | ⟨fc, P, rfl, hlen⟩⟩ := request_cases req
  · rw [parse_short hshort]
    exact iff_of_false (by simp) (by omega)
  · rw [parse_mismatch hlen, lenField_cons, List.length_cons]
    exact iff_of_false (by simp) (by simp only [List.length_cons]; omega)
  · rw [parse_missing hlen, lenField_cons]
    exact iff_of_true rfl ⟨rfl, by omega⟩
  · rw [parse_accepts hlen]
    exact iff_of_false (by simp) (by simp)

/-- Settles O10: the unit is latched too, and no other request misses its function code. -/
theorem missingFunctionCodeAnswered : Obligations.MissingFunctionCodeAnswered := by
  refine ⟨fun s rest t1 t0 p1 p0 u hs => ?_, fun req => decodeFrame_error_iff.trans (parse_missing_iff req)⟩
  have hparse := parse_missing (t1 := t1) (t0 := t0) (p1 := p1) (p0 := p0) (l1 := 0x00) (l0 := 0x01) (u := u) rfl
  rw [step_of_rejected hs (by rw [hparse]), hparse, frame_be16_pair]

section Accepted

variable {req : List Byte} {h : Header} {i : Instr}

/-- The outcome of an accepted request is what the handler of its instruction gives (rule R140). -/
theorem outcomeOf_accepted (hd : decodeFrame req = .ok (h, i)) (s : State) : outcomeOf req s = handle i s := by
  obtain ⟨haccept, _, rfl⟩ := decodeFrame_ok hd
  simp only [outcomeOf, haccept]

/-- The state that the handler of an accepted request starts from (rules R38, R130). -/
theorem load_accepted (hd : decodeFrame req = .ok (h, i)) (s : State) : s.load req = { s with
    req := req
    rsp := []
    latches := ⟨h.tid, h.pid, BitVec.ofNat 16 (1 + (encode i).length), h.unit, i.functionCode, encodePayload i⟩ } := by
  rw [State.load, parse_of_accepted hd]

end Accepted

/-- Settles O12: every meaning is its handler's outcome, framed, and the latches are the parser's. -/
theorem stepRunsDecodedInstruction : Obligations.StepRunsDecodedInstruction := by
  intro s req rest h i hs hd
  rw [step_transaction hs, outcomeOf_accepted hd, ← exec_eq_respond, load_accepted hd]

/-- Settles O13: a transaction ends under the header that was latched. -/
theorem acceptedHeaderIsEchoed : Obligations.AcceptedHeaderIsEchoed := by
  intro s req rest h i hs hd
  obtain ⟨_, rfl, _⟩ := decodeFrame_ok hd
  exact step_transaction_ended hs

end Sys2Proof.Machine


/-! Proofs of the families `41_read.md`, `42_write.md` and `43_report_and_unsupported.md`: what each function code answers
and writes, and the failures of its handler. -/

namespace Sys2Proof.Machine

section Execution

variable {i : Instr} {s : State} {pdu : List Byte} {st : Store} {k : Failure}

/-- A handler that does not fail gives the response PDU and the store left behind. -/
theorem exec_of_ok (hh : handle i s = .ok (pdu, st)) : exec i s = .next (s.answered pdu st) := by
  rw [exec_eq_respond, hh, respond_ok, emit_eq_ended]
  rfl

/-- A handler that fails is answered by the encoded exception, with no element changed (rules R242, R248). -/
theorem exec_of_error (hh : handle i s = .error k) :
    exec i s = .next (s.answered (encodeException s.latches.fc k) s.store) := by
  rw [exec_eq_respond, hh, respond_error, takeException_eq_emit, emit_eq_ended]
  rfl

/-- The same with the latched function code and the exception PDU written out. -/
theorem exec_fails {f : Byte} (hfc : s.latches.fc = f) (hh : handle i s = .error k) (hpdu : encodeException f k = pdu) :
    exec i s = .next (s.answered pdu s.store) := by
  rw [exec_of_error hh, hfc, hpdu]

/-- A malformed payload has the fallback code, whichever check it fails (rules R17, R242). -/
theorem exec_malformed {f : Byte} {r : MalformedReason} (hh : handle i s = .error (.malformed r))
    (hfc : s.latches.fc = f) : exec i s = .next (s.answered [f ||| 0x80, 0x04] s.store) :=
  exec_fails hfc hh rfl

/-- Every meaning answers a next state, with the store as it was or as the handler left it. -/
theorem exec_store {t : State} (hexec : exec i s = .next t) :
    t.store = s.store ∨ ∃ pdu, handle i s = .ok (pdu, t.store) := by
  cases hh : handle i s with
  | error k =>
    rw [exec_of_error hh] at hexec
    cases hexec
    exact .inl rfl
  | ok reply =>
    rw [exec_of_ok hh] at hexec
    cases hexec
    exact .inr ⟨reply.1, rfl⟩

end Execution

section Codec

/-- Two byte lists of one length with the same bits are equal. -/
theorem bytes_ext {a b : List Byte} (hlen : a.length = b.length)
    (hbit : ∀ i, i < 8 * a.length → (a.getD (i / 8) 0).getLsbD (i % 8) = (b.getD (i / 8) 0).getLsbD (i % 8)) : a = b := by
  refine List.ext_getElem hlen fun k ha hb => BitVec.eq_of_getLsbD_eq fun j hj => ?_
  have hk := hbit (8 * k + j) (by omega)
  rwa [show (8 * k + j) / 8 = k by omega, show (8 * k + j) % 8 = j by omega, List.getD_eq_getElem a 0 ha,
    List.getD_eq_getElem b 0 hb] at hk

/-- Settles O35: in both directions each bit keeps its place. -/
theorem codecLaws : Obligations.CodecLaws := by
  refine ⟨fun bits => ?_, fun bits => ?_, fun bytes => ?_⟩
  · have hlen := unpack_length (pack bits) bits.length
    refine List.ext_getElem hlen fun i hu hb => ?_
    rw [← List.getD_eq_getElem _ false hu, ← List.getD_eq_getElem _ false hb, unpack_getD _ _ _ _ hb, pack_bit]
    rw [pack_length]
    omega
  · rw [pack_length, ceilDiv_eight]
  · have hlen : (pack (unpack bytes (8 * bytes.length))).length = bytes.length := by
      rw [pack_length, unpack_length]
      omega
    refine bytes_ext hlen fun i hi => ?_
    rw [pack_bit hi, unpack_getD _ _ _ _ (hlen ▸ hi)]

end Codec

section Reads

variable {s : State} {start qty : U16}

theorem readReply_fits {d : List Byte} (h : d.length ≤ 255) (f : Byte) (st : Store) :
    readReply f st d = .ok ([f, BitVec.ofNat 8 d.length] ++ d, st) :=
  if_neg (Nat.not_lt.mpr h)

theorem readReply_overflows {d : List Byte} (h : 255 < d.length) (f : Byte) (st : Store) :
    readReply f st d = .error (.otherFailure .byteCountOverflow) :=
  if_pos h

theorem readBits_inRange (hr : start.toNat + qty.toNat ≤ s.params.size) (sp : BitSpace) (f : Byte) :
    readBits sp f (.fields start qty) s =
      readReply f s.store (pack (Memory.read false (s.store.bits sp) start.toNat qty.toNat)) :=
  if_pos ((inRange_iff s _ _).mpr hr)

theorem readRegs_inRange (hr : start.toNat + qty.toNat ≤ s.params.size) (sp : RegSpace) (f : Byte) :
    readRegs sp f (.fields start qty) s =
      readReply f s.store ((Memory.read 0 (s.store.regs sp) start.toNat qty.toNat).flatMap enc16) :=
  if_pos ((inRange_iff s _ _).mpr hr)

theorem inRange_ne_true_of_lt {a n : Nat} (hr : s.params.size < a + n) : ¬ s.inRange a n = true :=
  fun h => Nat.not_le.mpr hr ((inRange_iff s a n).mp h)

theorem readBits_outOfRange (hr : s.params.size < start.toNat + qty.toNat) (sp : BitSpace) (f : Byte) :
    readBits sp f (.fields start qty) s = .error .illegalDataAddress :=
  if_neg (inRange_ne_true_of_lt hr)

theorem readRegs_outOfRange (hr : s.params.size < start.toNat + qty.toNat) (sp : RegSpace) (f : Byte) :
    readRegs sp f (.fields start qty) s = .error .illegalDataAddress :=
  if_neg (inRange_ne_true_of_lt hr)

/-- The data of a bit read: each element in its place and 0 in the padding (rules R62, R143). -/
theorem pack_read_bit (m : Memory Bool) (a n : Nat) {j : Nat} (hj : j < 8 * (pack (Memory.read false m a n)).length) :
    ((pack (Memory.read false m a n)).getD (j / 8) 0).getLsbD (j % 8) =
      (decide (j < n) && Memory.get false m (a + j)) := by
  rw [pack_bit hj]
  by_cases hin : j < n
  · rw [Memory.read_getD m a n j hin, decide_eq_true hin, Bool.true_and]
  · rw [List.getD_eq_default _ _ (by rw [Memory.read_length]; omega), decide_eq_false hin, Bool.false_and]

/-- The data of a register read: each pair of bytes is its register, most significant byte first (rule R60). -/
theorem flatMap_enc16_read_pair (m : Memory U16) (a n : Nat) {j : Nat} (hj : j < n) :
    (((Memory.read 0 m a n).flatMap enc16).getD (2 * j) 0).toNat * 256 +
      (((Memory.read 0 m a n).flatMap enc16).getD (2 * j + 1) 0).toNat = (Memory.get 0 m (a + j)).toNat := by
  obtain ⟨_, hpairs⟩ := registerValues_spec ((Memory.read 0 m a n).flatMap enc16)
  rw [← be16_toNat, ← hpairs j (by rw [flatMap_enc16_length, Memory.read_length]; omega), registerValues_flatMap_enc16,
    Memory.read_getD m a n j hj]

/-- A bit read in range and within the byte count answers its elements, each in its place (rules R143, R169, R174). -/
theorem readBits_answers (hr : start.toNat + qty.toNat ≤ s.params.size) (hq : qty.toNat ≤ 2040) (sp : BitSpace)
    (f : Byte) : ∃ data : List Byte, data.length = (qty.toNat + 7) / 8 ∧
      (∀ j, j < 8 * data.length →
        (data.getD (j / 8) 0).getLsbD (j % 8) = (decide (j < qty.toNat) && s.store.bit sp (start.toNat + j))) ∧
      readBits sp f (.fields start qty) s = .ok ([f, BitVec.ofNat 8 data.length] ++ data, s.store) := by
  have hlen : (pack (Memory.read false (s.store.bits sp) start.toNat qty.toNat)).length = (qty.toNat + 7) / 8 := by
    rw [pack_length, Memory.read_length]
  refine ⟨_, hlen, fun j hj => pack_read_bit _ _ _ hj, ?_⟩
  rw [readBits_inRange hr, readReply_fits (by omega)]

/-- A register read in range and within the byte count answers its elements in order (rules R60, R169, R174). -/
theorem readRegs_answers (hr : start.toNat + qty.toNat ≤ s.params.size) (hq : qty.toNat ≤ 127) (sp : RegSpace)
    (f : Byte) : ∃ data : List Byte, data.length = qty.toNat * 2 ∧
      (∀ j, j < qty.toNat → (data.getD (2 * j) 0).toNat * 256 + (data.getD (2 * j + 1) 0).toNat =
        (s.store.reg sp (start.toNat + j)).toNat) ∧
      readRegs sp f (.fields start qty) s = .ok ([f, BitVec.ofNat 8 data.length] ++ data, s.store) := by
  have hlen : ((Memory.read 0 (s.store.regs sp) start.toNat qty.toNat).flatMap enc16).length = qty.toNat * 2 := by
    rw [flatMap_enc16_length, Memory.read_length, Nat.mul_comm]
  refine ⟨_, hlen, fun j hj => flatMap_enc16_read_pair _ _ _ hj, ?_⟩
  rw [readRegs_inRange hr, readReply_fits (by omega)]

/-- A read whose reply carries the data `d` fails exactly when the byte count of `d` does not fit (rule R150). -/
theorem failsOver_of_readReply {limit qty : Nat} {f : Byte} {i : Instr} {d : List Byte} (hfc : s.latches.fc = f)
    (hh : handle i s = readReply f s.store d) (hlimit : limit < qty ↔ 255 < d.length) : FailsOver limit f i qty s := by
  by_cases hover : 255 < d.length
  · have hfail := exec_fails hfc (hh.trans (readReply_overflows hover f s.store)) rfl
    exact ⟨_, hfail, iff_of_true (isException_frame_encodeException _ _ _ _ _) (hlimit.mpr hover), fun _ => rfl⟩
  · have hok := hh.trans (readReply_fits (Nat.not_lt.mp hover) f s.store)
    have hnot := isException_frame_of_handle_ok hok s.latches.tid s.latches.pid s.latches.unit
    exact ⟨_, exec_of_ok hok, iff_of_false (Bool.eq_false_iff.mp hnot) (hover ∘ hlimit.mp),
      fun hq => absurd (hlimit.mp hq) hover⟩

end Reads

/-- Settles O16: the bit read over the coils. -/
theorem readCoilsAnswersPackedCoils : Obligations.ReadCoilsAnswersPackedCoils := by
  intro s start qty hr hq
  obtain ⟨data, hlen, hbits, hreply⟩ := readBits_answers hr hq .co 0x01
  exact ⟨data, hlen, hbits, exec_of_ok hreply⟩

/-- Settles O17: the bit read over the discrete inputs. -/
theorem readDiscreteInputsAnswersPackedInputs : Obligations.ReadDiscreteInputsAnswersPackedInputs := by
  intro s start qty hr hq
  obtain ⟨data, hlen, hbits, hreply⟩ := readBits_answers hr hq .di 0x02
  exact ⟨data, hlen, hbits, exec_of_ok hreply⟩

/-- Settles O18: the register read over the holding registers. -/
theorem readHoldingRegistersAnswersBigEndian : Obligations.ReadHoldingRegistersAnswersBigEndian := by
  intro s start qty hr hq
  obtain ⟨data, hlen, hpairs, hreply⟩ := readRegs_answers hr hq .hr 0x03
  exact ⟨data, hlen, hpairs, exec_of_ok hreply⟩

/-- Settles O19: the register read over the input registers. -/
theorem readInputRegistersAnswersBigEndian : Obligations.ReadInputRegistersAnswersBigEndian := by
  intro s start qty hr hq
  obtain ⟨data, hlen, hpairs, hreply⟩ := readRegs_answers hr hq .ir 0x04
  exact ⟨data, hlen, hpairs, exec_of_ok hreply⟩

/-- Settles O27: the range check of the two shared bodies. -/
theorem outOfRangeReadsGetIllegalDataAddress : Obligations.OutOfRangeReadsGetIllegalDataAddress := by
  refine fun s start qty hr => ⟨fun hfc => ?_, fun hfc => ?_, fun hfc => ?_, fun hfc => ?_⟩
  · exact exec_fails hfc (readBits_outOfRange hr .co 0x01) rfl
  · exact exec_fails hfc (readBits_outOfRange hr .di 0x02) rfl
  · exact exec_fails hfc (readRegs_outOfRange hr .hr 0x03) rfl
  · exact exec_fails hfc (readRegs_outOfRange hr .ir 0x04) rfl

/-- Settles O30: a bit takes an eighth of a byte, rounded up, and a register two bytes. -/
theorem readFailsExactlyOverByteCount : Obligations.ReadFailsExactlyOverByteCount := by
  intro s start qty hr
  have hbits (sp : BitSpace) :
      2040 < qty.toNat ↔ 255 < (pack (Memory.read false (s.store.bits sp) start.toNat qty.toNat)).length := by
    rw [pack_length, Memory.read_length]
    omega
  have hregs (sp : RegSpace) :
      127 < qty.toNat ↔ 255 < ((Memory.read 0 (s.store.regs sp) start.toNat qty.toNat).flatMap enc16).length := by
    rw [flatMap_enc16_length, Memory.read_length]
    omega
  exact ⟨fun hfc => failsOver_of_readReply hfc (readBits_inRange hr .co 0x01) (hbits .co),
    fun hfc => failsOver_of_readReply hfc (readBits_inRange hr .di 0x02) (hbits .di),
    fun hfc => failsOver_of_readReply hfc (readRegs_inRange hr .hr 0x03) (hregs .hr),
    fun hfc => failsOver_of_readReply hfc (readRegs_inRange hr .ir 0x04) (hregs .ir)⟩

section Writes

variable {s : State} {start qty addr value : U16} {bc : Byte} {data : List Byte}

theorem writeSingleCoil_inRange (hr : addr.toNat < s.params.size) : writeSingleCoil (.fields addr value) s =
    .ok ([0x05] ++ enc16 addr ++ enc16 value, s.store.writeBits .co addr.toNat [coilBit value]) :=
  if_pos ((inRange_iff s _ _).mpr hr)

theorem writeSingleCoil_outOfRange (hr : s.params.size ≤ addr.toNat) :
    writeSingleCoil (.fields addr value) s = .error .illegalDataAddress :=
  if_neg (inRange_ne_true_of_lt (Nat.lt_succ_of_le hr))

theorem writeSingleRegister_inRange (hr : addr.toNat < s.params.size) : writeSingleRegister (.fields addr value) s =
    .ok ([0x06] ++ enc16 addr ++ enc16 value, s.store.writeRegs .hr addr.toNat [value]) :=
  if_pos ((inRange_iff s _ _).mpr hr)

theorem writeSingleRegister_outOfRange (hr : s.params.size ≤ addr.toNat) :
    writeSingleRegister (.fields addr value) s = .error .illegalDataAddress :=
  if_neg (inRange_ne_true_of_lt (Nat.lt_succ_of_le hr))

/-- Past its two shape checks, Write Multiple Coils is left with the range check (rule R192). -/
theorem writeMultipleCoils_wellShaped (hbc : bc.toNat = data.length) (hq : qty.toNat ≤ 8 * bc.toNat) :
    writeMultipleCoils (.fields start qty bc data) s =
      if s.inRange start.toNat qty.toNat then
        .ok ([0x0F] ++ enc16 start ++ enc16 qty, s.store.writeBits .co start.toNat (unpack data qty.toNat))
      else .error .illegalDataAddress := by
  rw [writeMultipleCoils, if_neg (not_not_intro hbc), if_neg (Nat.not_lt.mpr hq)]

/-- Past its two shape checks, Write Multiple Registers is left with the range check (rule R193). -/
theorem writeMultipleRegisters_wellShaped (hq : bc.toNat = 2 * qty.toNat) (hbc : bc.toNat = data.length) :
    writeMultipleRegisters (.fields start qty bc data) s =
      if s.inRange start.toNat qty.toNat then
        .ok ([0x10] ++ enc16 start ++ enc16 qty, s.store.writeRegs .hr start.toNat (registerValues data))
      else .error .illegalDataAddress := by
  rw [writeMultipleRegisters, if_neg (by omega), if_neg (not_not_intro hbc)]

/-- A shape failure of Write Multiple Coils, before any range check (rules R192, R247). -/
theorem writeMultipleCoils_malformed (hshape : bc.toNat ≠ data.length ∨ 8 * bc.toNat < qty.toNat) :
    ∃ r, writeMultipleCoils (.fields start qty bc data) s = .error (.malformed r) := by
  by_cases hbc : bc.toNat = data.length
  · refine ⟨.tooFewBits, ?_⟩
    rw [writeMultipleCoils, if_neg (not_not_intro hbc), if_pos (hshape.resolve_left (not_not_intro hbc))]
  · exact ⟨.byteCountMismatch, if_pos hbc⟩

/-- A shape failure of Write Multiple Registers, before any range check (rules R193, R247). -/
theorem writeMultipleRegisters_malformed (hshape : bc.toNat ≠ 2 * qty.toNat ∨ bc.toNat ≠ data.length) :
    ∃ r, writeMultipleRegisters (.fields start qty bc data) s = .error (.malformed r) := by
  by_cases hq : bc.toNat = qty.toNat * 2
  · refine ⟨.byteCountMismatch, ?_⟩
    rw [writeMultipleRegisters, if_neg (not_not_intro hq), if_pos (by omega)]
  · exact ⟨.byteCountNotTwiceQty, if_pos hq⟩

/-- A write of one bit, read back at every index of the two bit spaces. -/
theorem Store.bit_writeBits_one {n : Nat} {st : Store} {a : Nat} (ha : a < n) (hwf : st.wf n = true) (sp sp' : BitSpace)
    (v : Bool) (k : Nat) : (st.writeBits sp a [v]).bit sp' k = if sp' = sp ∧ k = a then v else st.bit sp' k := by
  rw [Store.bit_writeBits (vs := [v]) ha hwf]
  refine if_ctx_congr ?_ (fun hk => ?_) fun _ => rfl
  · simp only [List.length_cons, List.length_nil]
    exact and_congr_right fun _ => by omega
  · rw [hk.2, Nat.sub_self, List.getD_cons_zero]

/-- A write of one register, read back at every index of the two register spaces. -/
theorem Store.reg_writeRegs_one {n : Nat} {st : Store} {a : Nat} (ha : a < n) (hwf : st.wf n = true) (sp sp' : RegSpace)
    (v : U16) (k : Nat) : (st.writeRegs sp a [v]).reg sp' k = if sp' = sp ∧ k = a then v else st.reg sp' k := by
  rw [Store.reg_writeRegs (vs := [v]) ha hwf]
  refine if_ctx_congr ?_ (fun hk => ?_) fun _ => rfl
  · simp only [List.length_cons, List.length_nil]
    exact and_congr_right fun _ => by omega
  · rw [hk.2, Nat.sub_self, List.getD_cons_zero]

/-- The bits unpacked from a data field, read back at every index of the two bit spaces (rule R144). -/
theorem Store.bit_writeBits_unpack {n : Nat} {st : Store} {a q : Nat} (ha : a + q ≤ n) (hwf : st.wf n = true)
    (data : List Byte) (sp : BitSpace) (k : Nat) : (st.writeBits .co a (unpack data q)).bit sp k =
      if sp = .co ∧ a ≤ k ∧ k < a + q then (data.getD ((k - a) / 8) 0).getLsbD ((k - a) % 8) else st.bit sp k := by
  rw [Store.bit_writeBits (by rwa [unpack_length]) hwf, unpack_length]
  exact if_ctx_congr Iff.rfl (fun hk => unpack_getD data q _ _ (by omega)) fun _ => rfl

/-- The big-endian pairs of a data field, read back at every index of the two register spaces (rules R60, R97). -/
theorem Store.reg_writeRegs_pairs {n : Nat} {st : Store} {a q : Nat} (ha : a + q ≤ n) (hwf : st.wf n = true)
    {data : List Byte} (hd : data.length = 2 * q) (sp : RegSpace) (k : Nat) :
    (st.writeRegs .hr a (registerValues data)).reg sp k =
      if sp = .hr ∧ a ≤ k ∧ k < a + q then be16 (data.getD (2 * (k - a)) 0) (data.getD (2 * (k - a) + 1) 0)
      else st.reg sp k := by
  obtain ⟨hlen, hpairs⟩ := registerValues_spec data
  have hcount : (registerValues data).length = q := by omega
  rw [Store.reg_writeRegs (by rwa [hcount]) hwf, hcount]
  exact if_ctx_congr Iff.rfl (fun hk => hpairs _ (by omega)) fun _ => rfl

end Writes

/-- Settles O20: one bit written into the coils. -/
theorem writeSingleCoilWritesOneCoil : Obligations.WriteSingleCoilWritesOneCoil := fun _ _ _ hwf hr =>
  ⟨_, fun sp k => Store.bit_writeBits_one hr hwf .co sp _ k, Store.reg_writeBits _ _ _ _,
    exec_of_ok (writeSingleCoil_inRange hr)⟩

/-- Settles O21: one register written into the holding registers. -/
theorem writeSingleRegisterWritesOneRegister : Obligations.WriteSingleRegisterWritesOneRegister := fun _ _ _ hwf hr =>
  ⟨_, fun sp k => Store.reg_writeRegs_one hr hwf .hr sp _ k, Store.bit_writeRegs _ _ _ _,
    exec_of_ok (writeSingleRegister_inRange hr)⟩

/-- Settles O22: the unpacked bits written into the coils. -/
theorem writeMultipleCoilsWritesUnpackedBits : Obligations.WriteMultipleCoilsWritesUnpackedBits := by
  intro s start qty bc data hwf hbc hq hr
  have hh := (writeMultipleCoils_wellShaped hbc hq).trans (if_pos ((inRange_iff s _ _).mpr hr))
  exact ⟨_, Store.bit_writeBits_unpack hr hwf data, Store.reg_writeBits _ _ _ _, exec_of_ok hh⟩

/-- Settles O23: the pairs of the data written into the holding registers. -/
theorem writeMultipleRegistersWritesPairs : Obligations.WriteMultipleRegistersWritesPairs := by
  intro s start qty bc data hwf hq hbc hr
  have hh := (writeMultipleRegisters_wellShaped hq hbc).trans (if_pos ((inRange_iff s _ _).mpr hr))
  refine ⟨_, fun sp k => ?_, Store.bit_writeRegs _ _ _ _, exec_of_ok hh⟩
  rw [Store.reg_writeRegs_pairs hr hwf (hbc.symm.trans hq), apply_ite BitVec.toNat, be16_toNat]

/-- Settles O28: the range check, alone in the single writes and after the shape checks in the multiple writes. -/
theorem outOfRangeWritesGetIllegalDataAddress : Obligations.OutOfRangeWritesGetIllegalDataAddress := by
  refine fun s => ⟨fun addr value hr => ⟨fun hfc => ?_, fun hfc => ?_⟩,
    fun start qty bc data hr hbc => ⟨fun hfc hq => ?_, fun hfc hq => ?_⟩⟩
  · exact exec_fails hfc (writeSingleCoil_outOfRange hr) rfl
  · exact exec_fails hfc (writeSingleRegister_outOfRange hr) rfl
  · exact exec_fails hfc ((writeMultipleCoils_wellShaped hbc hq).trans (if_neg (inRange_ne_true_of_lt hr))) rfl
  · exact exec_fails hfc ((writeMultipleRegisters_wellShaped hq hbc).trans (if_neg (inRange_ne_true_of_lt hr))) rfl

/-- Settles O29: no handler looks at its range before the shape of its payload is right. -/
theorem malformedPayloadsGetFallbackCode : Obligations.MalformedPayloadsGetFallbackCode := by
  intro s raw start qty bc data
  refine ⟨exec_malformed rfl, exec_malformed rfl, exec_malformed rfl, exec_malformed rfl, exec_malformed rfl,
    exec_malformed rfl, exec_malformed rfl, fun hfc hshape => ?_, exec_malformed rfl, fun hfc hshape => ?_⟩
  · obtain ⟨r, hh⟩ := writeMultipleCoils_malformed hshape
    exact exec_fails hfc hh rfl
  · obtain ⟨r, hh⟩ := writeMultipleRegisters_malformed hshape
    exact exec_fails hfc hh rfl

/-- Settles O48: a write that fails leaves the store, and one that does not has written every element it names. -/
theorem multipleWritesAreAllOrNothing : Obligations.MultipleWritesAreAllOrNothing := by
  refine fun s t start qty bc data hwf => ⟨fun hexec => (exec_store hexec).imp_right ?_,
    fun hexec => (exec_store hexec).imp_right ?_⟩
  · rintro ⟨pdu, hh⟩ j hj
    obtain ⟨_, _, _, _, hop, _, _, hr, _, hst⟩ := writeMultipleCoils_ok (op := .fields start qty bc data) hh
    cases hop
    rw [hst, Store.bit_writeBits_unpack hr hwf, if_pos ⟨rfl, Nat.le_add_right _ _, Nat.add_lt_add_left hj _⟩,
      Nat.add_sub_cancel_left]
  · rintro ⟨pdu, hh⟩ j hj
    obtain ⟨_, _, _, _, hop, _, hd, hr, _, hst⟩ := writeMultipleRegisters_ok (op := .fields start qty bc data) hh
    cases hop
    rw [hst, Store.reg_writeRegs_pairs hr hwf hd, if_pos ⟨rfl, Nat.le_add_right _ _, Nat.add_lt_add_left hj _⟩,
      Nat.add_sub_cancel_left]

/-- Settles O24: Report Slave ID checks nothing, and its byte count is bounded with the identification bytes. -/
theorem reportSlaveIdAnswersIdentity : Obligations.ReportSlaveIdAnswersIdentity := by
  refine fun s P => ⟨exec_of_ok rfl, ?_⟩
  have := s.params.ident_bound
  omega

/-- Settles O25: the whole effect of the catch-all is its failure. -/
theorem unsupportedCodeAnswersIllegalFunction : Obligations.UnsupportedCodeAnswersIllegalFunction :=
  fun _ _ _ => exec_fails rfl rfl rfl

end Sys2Proof.Machine


/-! Proofs of the families `40_frame_and_dispatch.md`, second part, and `60_exceptions.md`: what a whole transaction answers
and what it depends on (rules R130, R147 to R149, R244 to R248). -/

namespace Sys2Proof.Machine

section Outcome

/-- The PDU that the outcome of a transaction is answered by, under function code `f` (rules R142, R242). -/
def responsePdu (f : Byte) : Except Failure Reply → List Byte
  | .ok reply => reply.1
  | .error k => encodeException f k

/-- The store that the outcome of a transaction leaves behind (rules R142, R248). -/
def storeAfter (st : Store) : Except Failure Reply → Store
  | .ok reply => reply.2
  | .error _ => st

/-- How an outcome ends its transaction: with its PDU framed under the latches, and its store. -/
theorem respond_eq_answered (s : State) (out : Except Failure Reply) :
    s.respond out = s.answered (responsePdu s.latches.fc out) (storeAfter s.store out) := by
  cases out <;> rfl

variable {i : Instr} {s s' : State} {req : List Byte}

/-- A handler reads the parameters and the store; only Report Slave ID reads a latch, the unit (rules R149, R220). -/
theorem handle_congr (hparams : s.params = s'.params) (hstore : s.store = s'.store)
    (hunit : i.functionCode = 0x11 → s.latches.unit = s'.latches.unit) : handle i s = handle i s' := by
  have hrange (a n : Nat) : s.inRange a n = s'.inRange a n := by rw [State.inRange, State.inRange, hparams]
  cases i with
  | rdcoils op | rddisc op => cases op <;> simp only [handle, readBits, hrange, hstore]
  | rdhold op | rdinput op => cases op <;> simp only [handle, readRegs, hrange, hstore]
  | wrcoil op => cases op <;> simp only [handle, writeSingleCoil, hrange, hstore]
  | wrreg op => cases op <;> simp only [handle, writeSingleRegister, hrange, hstore]
  | wrcoils op => cases op <;> simp only [handle, writeMultipleCoils, hrange, hstore]
  | wrregs op => cases op <;> simp only [handle, writeMultipleRegisters, hrange, hstore]
  | reportid ignored => simp only [handle, reportSlaveId, hparams, hstore, hunit rfl]
  | illegal fc unexamined => rfl

/-- The outcome of a request depends on the parameters, the store and the latched unit. -/
theorem outcomeOf_congr (hparams : s.params = s'.params) (hstore : s.store = s'.store)
    (hunit : s.latches.unit = s'.latches.unit) : outcomeOf req s = outcomeOf req s' := by
  simp only [outcomeOf, handle_congr hparams hstore fun _ => hunit]

/-- Only the catch-all fails as an Illegal Function (rules R101, R221). -/
theorem handle_illegalFunction (hh : handle i s = .error .illegalFunction) : ∃ fc P, i = .illegal fc P := by
  cases i with
  | illegal fc unexamined => exact ⟨fc, unexamined, rfl⟩
  | reportid ignored => cases hh
  | rdcoils op | rddisc op =>
    cases op with
    | badLength raw => cases hh
    | fields start qty =>
      simp only [handle, readBits, readReply] at hh
      split_ifs at hh <;> cases hh
  | rdhold op | rdinput op =>
    cases op with
    | badLength raw => cases hh
    | fields start qty =>
      simp only [handle, readRegs, readReply] at hh
      split_ifs at hh <;> cases hh
  | wrcoil op =>
    cases op with
    | badLength raw => cases hh
    | fields addr value =>
      simp only [handle, writeSingleCoil] at hh
      split_ifs at hh
      cases hh
  | wrreg op =>
    cases op with
    | badLength raw => cases hh
    | fields addr value =>
      simp only [handle, writeSingleRegister] at hh
      split_ifs at hh
      cases hh
  | wrcoils op =>
    cases op with
    | tooShort raw => cases hh
    | fields start qty bc data =>
      simp only [handle, writeMultipleCoils] at hh
      split_ifs at hh <;> cases hh
  | wrregs op =>
    cases op with
    | tooShort raw => cases hh
    | fields start qty bc data =>
      simp only [handle, writeMultipleRegisters] at hh
      split_ifs at hh <;> cases hh

/-- No supported function code decodes to the catch-all (rules R100, R101). -/
theorem decodePayload_eq_illegal {fc fc' : Byte} {P P' : List Byte} (hi : decodePayload fc P = .illegal fc' P') :
    fc ∉ supportedCodes := by
  intro hfc
  obtain rfl | rfl | rfl | rfl | rfl | rfl | rfl | rfl | rfl := mem_supportedCodes.mp hfc
  all_goals cases hi

/-- The code 0x01 is that of an Illegal Function alone (rule R241). -/
theorem exceptionCode_eq_one_iff {k : Failure} : exceptionCode k = 0x01 ↔ k = .illegalFunction := by
  refine ⟨fun hcode => ?_, fun hk => hk ▸ rfl⟩
  by_contra hne
  by_cases haddr : k = .illegalDataAddress
  · subst haddr
    exact absurd hcode (by decide)
  · rw [exceptionCode_fallback hne haddr] at hcode
    exact absurd hcode (by decide)

/-- An accepted request fails as an Illegal Function exactly where its function code is not supported (rule R221). -/
theorem handle_accepted_illegalFunction {h : Header} {k : Failure} (hd : decodeFrame req = .ok (h, i))
    (hh : handle i s = .error k) : k = .illegalFunction ↔ i.functionCode ∉ supportedCodes := by
  obtain ⟨haccept, _, hi⟩ := decodeFrame_ok hd
  rw [← parse_fc_of_accepted hd]
  constructor
  · rintro rfl
    obtain ⟨_, _, hillegal⟩ := handle_illegalFunction hh
    exact decodePayload_eq_illegal (hi.symm.trans hillegal)
  · intro hfc
    have hout := outcomeOf_unsupported haccept hfc s
    rw [outcomeOf_accepted hd, hh] at hout
    exact Except.error.inj hout

end Outcome

section Transaction

variable {s : State} {req : List Byte} {rest : List RunStep} {h : Header} {i : Instr}

/-- A whole transaction: its outcome's PDU framed under what the parser latched, and its outcome's store (rule R130). -/
theorem step_transaction_eq (hs : s.schedule = .transaction req :: rest) :
    step s = .next (s.ended req (frame (parse req).1.tid (parse req).1.pid (parse req).1.unit
      (responsePdu (parse req).1.fc (outcomeOf req (s.load req)))) (storeAfter s.store (outcomeOf req (s.load req))) rest) := by
  have hout : outcomeOf req (State.load { s with schedule := rest } req) = outcomeOf req (s.load req) :=
    outcomeOf_congr rfl rfl rfl
  rw [step_transaction hs, hout, respond_eq_answered]
  rfl

/-- The same of an accepted request, from what it decodes to. -/
theorem step_accepted_eq (hs : s.schedule = .transaction req :: rest) (hd : decodeFrame req = .ok (h, i)) :
    step s = .next (s.ended req (frame h.tid h.pid h.unit (responsePdu i.functionCode (handle i (s.load req))))
      (storeAfter s.store (handle i (s.load req))) rest) := by
  rw [step_transaction_eq hs, outcomeOf_accepted hd, parse_of_accepted hd]

/-- An accepted request whose handler does not fail. -/
theorem step_of_handle_ok {pdu : List Byte} {st : Store} (hs : s.schedule = .transaction req :: rest)
    (hd : decodeFrame req = .ok (h, i)) (hh : handle i (s.load req) = .ok (pdu, st)) :
    step s = .next (s.ended req (frame h.tid h.pid h.unit pdu) st rest) := by
  rw [step_accepted_eq hs hd, hh]
  rfl

/-- A frame around a PDU of 2 to 257 bytes is well formed (rules R105, R146). -/
theorem wellFramed_frame {t p : U16} {u : Byte} {pdu : List Byte} (hmin : 2 ≤ pdu.length) (hmax : pdu.length ≤ 257) :
    wellFramed (frame t p u pdu) = true := by
  simp only [wellFramed, frame_length, lenField_frame t p u (show pdu.length ≤ 65534 by omega), Bool.and_eq_true,
    decide_eq_true_eq]
  omega

/-- What a response looks like from outside, whatever the outcome: a well-formed frame, which is an exception response of 9
bytes or names one of the nine codes (rules R105, R258). -/
theorem response_shape (t p : U16) (u f : Byte) (req : List Byte) (s : State) :
    wellFramed (frame t p u (responsePdu f (outcomeOf req s))) = true ∧
    (isException (frame t p u (responsePdu f (outcomeOf req s))) = true →
      (frame t p u (responsePdu f (outcomeOf req s))).length = 9) ∧
    (isException (frame t p u (responsePdu f (outcomeOf req s))) = false →
      functionByte (frame t p u (responsePdu f (outcomeOf req s))) ∈ supportedCodes) := by
  cases hout : outcomeOf req s with
  | error k =>
    refine ⟨wellFramed_frame (pdu := encodeException f k) (Nat.le_refl 2) (Nat.le_add_left 2 255), fun _ => rfl,
      fun hnot => ?_⟩
    rw [responsePdu, isException_frame_encodeException] at hnot
    cases hnot
  | ok reply =>
    obtain ⟨_, hh⟩ := outcomeOf_ok hout
    obtain ⟨hmin, hmax, hhead, hsupported⟩ := handle_pdu hh
    refine ⟨wellFramed_frame hmin hmax, fun hexc => ?_, fun _ => ?_⟩
    · rw [responsePdu, isException_frame_of_handle_ok hh] at hexc
      cases hexc
    · obtain ⟨r, hr⟩ := List.head?_eq_some_iff.mp hhead
      rw [responsePdu, hr]
      exact hsupported

/-- A well-formed instruction of function code 0x11 is Report Slave ID. -/
theorem eq_reportid_of_functionCode (hw : i.WellFormed = true) (hfc : i.functionCode = 0x11) :
    ∃ P, i = .reportid P := by
  rw [← decodePayload_encodePayload hw, hfc]
  exact ⟨_, rfl⟩

end Transaction

/-- Settles O14: the failure is the handler's, and Illegal Function is the failure of the unsupported codes alone. -/
theorem acceptedFailureNamesItsFunctionCode : Obligations.AcceptedFailureNamesItsFunctionCode := by
  intro s t req rest h i hs hd hstep hexc
  rw [step_accepted_eq hs hd] at hstep
  cases hstep
  cases hh : handle i (s.load req) with
  | error k =>
    exact ⟨exceptionCode k, exceptionCode_mem k, rfl,
      exceptionCode_eq_one_iff.trans (handle_accepted_illegalFunction hd hh)⟩
  | ok reply =>
    simp only [State.ended, hh, responsePdu] at hexc
    rw [isException_frame_of_handle_ok hh] at hexc
    cases hexc

/-- Settles O15: both requests run one handler on states that differ in latches and request alone, of which only Report
Slave ID reads one, its unit. -/
theorem headerDoesNotChangeTreatment : Obligations.HeaderDoesNotChangeTreatment := by
  intro s rest h h' i hw
  by_cases hfc : i.functionCode = 0x11
  · obtain ⟨P, rfl⟩ := eq_reportid_of_functionCode hw hfc
    have hunit (g : Header) : (parse (encodeFrame g (.reportid P))).1.unit = g.unit := by
      rw [parse_of_accepted (frameRoundTrip g _ hw)]
    have hstep (g : Header) := step_of_handle_ok (s := { s with schedule := .transaction (encodeFrame g _) :: rest }) rfl
      (frameRoundTrip g _ hw) rfl
    refine ⟨_, _, _, hstep h, hstep h', .inr ⟨hfc, ?_, hunit h, hunit h'⟩⟩
    simp only [List.cons_append, List.set_cons_succ, List.set_cons_zero, load_params]
  · have hstep (g : Header) := step_accepted_eq
      (s := { s with schedule := .transaction (encodeFrame g i) :: rest }) rfl (frameRoundTrip g i hw)
    have hsame : handle i (State.load { s with schedule := .transaction (encodeFrame h' i) :: rest } (encodeFrame h' i)) =
        handle i (State.load { s with schedule := .transaction (encodeFrame h i) :: rest } (encodeFrame h i)) :=
      handle_congr rfl rfl fun hreport => absurd hreport hfc
    exact ⟨_, _, _, hstep h, hsame ▸ hstep h', .inl ⟨rfl, hfc⟩⟩

/-- Settles O37: every outcome is answered, in a response of the shape above. -/
theorem everyRequestGetsOneResponse : Obligations.EveryRequestGetsOneResponse :=
  fun s req _ hs => ⟨_, _, step_transaction_eq hs, response_shape _ _ _ _ req (s.load req)⟩

/-- Settles O41: only a failure is answered by an exception response, and a failure leaves the store. -/
theorem failedTransactionsChangeNothing : Obligations.FailedTransactionsChangeNothing := by
  intro s t req rest hs hstep hexc
  rw [step_transaction_eq hs] at hstep
  cases hstep
  cases hout : outcomeOf req (s.load req) with
  | error k => rfl
  | ok reply =>
    obtain ⟨_, hh⟩ := outcomeOf_ok hout
    simp only [State.ended, hout, responsePdu] at hexc
    rw [isException_frame_of_handle_ok hh] at hexc
    cases hexc

/-- Settles O45: the request fixes the latches, and parameters and store the rest of the outcome. -/
theorem transactionsAreDeterministic : Obligations.TransactionsAreDeterministic := by
  intro s s' t t' req rest rest' hparams hstore hs hs' hstep hstep'
  have hout : outcomeOf req (s.load req) = outcomeOf req (s'.load req) := outcomeOf_congr hparams hstore rfl
  rw [step_transaction_eq hs] at hstep
  rw [step_transaction_eq hs'] at hstep'
  cases hstep
  cases hstep'
  simp only [State.ended, hout, hstore, and_self]

end Sys2Proof.Machine


/-! Proofs of the families `10_state.md`, `20_memory.md` and `70_reset_and_hazards.md`: what any step of a run changes and
keeps (rules R30 to R44, R66 to R69, R257, R280, R281). -/

namespace Sys2Proof.Machine

section Edits

/-- What a step `x` of a run can make of the store of a block of size `n`: nothing, all zero by a reset, or one write inside
one array, in the coils and the holding registers only to elements that the step names (rules R31 to R34, R42, R66). -/
inductive Store.Edited (x : RunStep) (n : Nat) (st : Store) : Store → Prop
  | kept : Edited x n st st
  | cleared (hx : x = .reset) : Edited x n st Store.zero
  | bits {sp : BitSpace} {a : Nat} {vs : List Bool} (hin : a + vs.length ≤ n)
      (named : sp = .co → ∀ k, a ≤ k → k < a + vs.length → x.namesCoil k = true) : Edited x n st (st.writeBits sp a vs)
  | regs {sp : RegSpace} {a : Nat} {vs : List U16} (hin : a + vs.length ≤ n)
      (named : sp = .hr → ∀ k, a ≤ k → k < a + vs.length → x.namesHolding k = true) : Edited x n st (st.writeRegs sp a vs)

variable {x : RunStep} {n : Nat} {st st' : Store}

theorem Store.Edited.wf (hedit : Store.Edited x n st st') (hwf : st.wf n = true) : st'.wf n = true := by
  cases hedit with
  | kept => exact hwf
  | cleared => exact Store.zero_wf n
  | bits hin => exact Store.wf_writeBits hin hwf
  | regs hin => exact Store.wf_writeRegs hin hwf

/-- A holding register that the step does not name is as before. -/
theorem Store.Edited.reg_hr (hedit : Store.Edited x n st st') (hwf : st.wf n = true) {k : Nat}
    (hx : x.namesHolding k = false) : st'.reg .hr k = st.reg .hr k := by
  cases hedit with
  | kept => rfl
  | cleared hreset =>
    subst hreset
    cases hx
  | bits => exact Store.reg_writeBits _ _ _ _ _ _
  | regs hin named =>
    refine (Store.reg_writeRegs hin hwf .hr k).trans (if_neg fun hk => ?_)
    rw [named hk.1.symm k hk.2.1 hk.2.2] at hx
    cases hx

/-- A coil that the step does not name is as before. -/
theorem Store.Edited.bit_co (hedit : Store.Edited x n st st') (hwf : st.wf n = true) {k : Nat}
    (hx : x.namesCoil k = false) : st'.bit .co k = st.bit .co k := by
  cases hedit with
  | kept => rfl
  | cleared hreset =>
    subst hreset
    cases hx
  | regs => exact Store.bit_writeRegs _ _ _ _ _ _
  | bits hin named =>
    refine (Store.bit_writeBits hin hwf .co k).trans (if_neg fun hk => ?_)
    rw [named hk.1.symm k hk.2.1 hk.2.2] at hx
    cases hx

theorem namesHolding_transaction {req : List Byte} {h : Header} {i : Instr} (hd : decodeFrame req = .ok (h, i)) (k : Nat) :
    (RunStep.transaction req).namesHolding k = Instr.namesHolding k i := by
  simp only [RunStep.namesHolding, hd]

theorem namesCoil_transaction {req : List Byte} {h : Header} {i : Instr} (hd : decodeFrame req = .ok (h, i)) (k : Nat) :
    (RunStep.transaction req).namesCoil k = Instr.namesCoil k i := by
  simp only [RunStep.namesCoil, hd]

/-- A transaction edits the store only where its handler does not fail, and there as its instruction names. -/
theorem storeAfter_edited (s : State) (req : List Byte) :
    Store.Edited (.transaction req) s.params.size s.store (storeAfter s.store (outcomeOf req (s.load req))) := by
  cases hout : outcomeOf req (s.load req) with
  | error k => exact .kept
  | ok reply =>
    cases hd : decodeFrame req with
    | error k =>
      simp only [outcomeOf, decodeFrame_error hd] at hout
      cases hout
    | ok accepted =>
      rw [outcomeOf_accepted hd] at hout
      obtain hst | ⟨a, vs, hin, hst, hnamed⟩ | ⟨a, vs, hin, hst, hnamed⟩ := handle_store hout
      all_goals rw [storeAfter, hst]
      · exact .kept
      · exact .bits hin fun _ k hlo hhi => (namesCoil_transaction hd k).trans (hnamed k hlo hhi)
      · exact .regs hin fun _ k hlo hhi => (namesHolding_transaction hd k).trans (hnamed k hlo hhi)

end Edits

section Steps

variable {s t : State} {x : RunStep} {rest : List RunStep}

/-- A host access changes at most the store, by a write of the element it names, and the answers given (rule R42). -/
theorem step_host_cases (hs : s.schedule = x :: rest) (hreset : x ≠ .reset) (hreq : ∀ req, x ≠ .transaction req) :
    ∃ st answers, step s = .next { s with schedule := rest, store := st, hostAnswers := answers } ∧
      Store.Edited x s.params.size s.store st := by
  cases x with
  | reset => exact absurd rfl hreset
  | transaction req => exact absurd rfl (hreq req)
  | hostReadBit sp i =>
    rw [step_hostReadBit hs, hostReadBit_eq]
    exact ⟨_, _, rfl, .kept⟩
  | hostReadReg sp i =>
    rw [step_hostReadReg hs, hostReadReg_eq]
    exact ⟨_, _, rfl, .kept⟩
  | hostWriteBit sp i v =>
    rw [step_hostWriteBit hs]
    obtain ⟨hin, hwrite⟩ | ⟨_, hwrite⟩ := hostWriteBit_cases { s with schedule := rest } sp i v
    all_goals rw [hwrite]
    · refine ⟨_, _, rfl, .bits (vs := [v]) hin fun hsp k hlo hhi => ?_⟩
      subst hsp
      exact beq_iff_eq.mpr (Nat.le_antisymm hlo (Nat.le_of_lt_succ hhi))
    · exact ⟨_, _, rfl, .kept⟩
  | hostWriteReg sp i v =>
    rw [step_hostWriteReg hs]
    obtain ⟨hin, hwrite⟩ | ⟨_, hwrite⟩ := hostWriteReg_cases { s with schedule := rest } sp i v
    all_goals rw [hwrite]
    · refine ⟨_, _, rfl, .regs (vs := [v]) hin fun hsp k hlo hhi => ?_⟩
      subst hsp
      exact beq_iff_eq.mpr (Nat.le_antisymm hlo (Nat.le_of_lt_succ hhi))
    · exact ⟨_, _, rfl, .kept⟩

/-- Everything the step `x` of a run can do: a reset, a transaction that ends in one well-formed response, or a host access
(rule R289). -/
theorem step_cases (hs : s.schedule = x :: rest) :
    (x = .reset ∧ step s = .next (State.applyReset { s with schedule := rest })) ∨
    (∃ req rsp st, x = .transaction req ∧ step s = .next (s.ended req rsp st rest) ∧ wellFramed rsp = true ∧
      Store.Edited x s.params.size s.store st) ∨
    (∃ st answers, step s = .next { s with schedule := rest, store := st, hostAnswers := answers } ∧
      Store.Edited x s.params.size s.store st) := by
  by_cases hreset : x = .reset
  · subst hreset
    exact .inl ⟨rfl, step_reset hs⟩
  by_cases hreq : ∃ req, x = .transaction req
  · obtain ⟨req, rfl⟩ := hreq
    exact .inr (.inl ⟨req, _, _, rfl, step_transaction_eq hs, (response_shape _ _ _ _ req (s.load req)).1,
      storeAfter_edited s req⟩)
  · exact .inr (.inr (step_host_cases hs hreset fun req hx => hreq ⟨req, hx⟩))

/-- A step that is presented is taken: it leaves the rest of the schedule and the parameters, and edits the store. -/
theorem step_takes (hs : s.schedule = x :: rest) : ∃ t, step s = .next t ∧ t.schedule = rest ∧ t.params = s.params ∧
    Store.Edited x s.params.size s.store t.store := by
  obtain ⟨hx, hstep⟩ | ⟨req, rsp, st, _, hstep, _, hedit⟩ | ⟨st, answers, hstep, hedit⟩ := step_cases hs
  · exact ⟨_, hstep, rfl, rfl, .cleared hx⟩
  · exact ⟨_, hstep, rfl, rfl, hedit⟩
  · exact ⟨_, hstep, rfl, rfl, hedit⟩

end Steps

/-- Settles O38: the edits of a step keep the canonical form, a reset and the end of a transaction leave none in progress,
and the one response that a step can emit is well framed. -/
theorem everyStepKeepsInvariant : Obligations.EveryStepKeepsInvariant := by
  rintro s t ⟨hwf, hlatches, hreq, hrsp, hexchanges⟩ hstep
  cases hs : s.schedule with
  | nil =>
    rw [step_idle hs] at hstep
    cases hstep
    exact ⟨hwf, hlatches, hreq, hrsp, hexchanges⟩
  | cons x rest =>
    obtain ⟨_, hnext⟩ | ⟨req, rsp, st, _, hnext, hframed, hedit⟩ | ⟨st, answers, hnext, hedit⟩ := step_cases hs
    all_goals
      rw [hnext] at hstep
      cases hstep
    · exact ⟨Store.zero_wf _, rfl, rfl, .inl rfl, hexchanges⟩
    · refine ⟨hedit.wf hwf, rfl, rfl, .inr hframed, fun e he => ?_⟩
      obtain hold | hnew := List.mem_append.mp he
      · exact hexchanges e hold
      · rw [List.mem_singleton.mp hnew]
        exact hframed
    · exact ⟨hedit.wf hwf, hlatches, hreq, hrsp, hexchanges⟩

/-- Settles O44: an idle step keeps the whole state, and a step that is taken the parameters. -/
theorem parametersNeverChange : Obligations.ParametersNeverChange := by
  intro s t hstep
  cases hs : s.schedule with
  | nil =>
    rw [step_idle hs] at hstep
    cases hstep
    rfl
  | cons x rest =>
    obtain ⟨t', hnext, _, hparams, _⟩ := step_takes hs
    rw [hnext] at hstep
    cases hstep
    exact hparams

/-- Settles O43: a step edits the store only where it names the element. -/
theorem onlyNamedElementsChange : Obligations.OnlyNamedElementsChange := by
  intro s t x rest a hwf hs hstep
  obtain ⟨t', hnext, _, _, hedit⟩ := step_takes hs
  rw [hnext] at hstep
  cases hstep
  exact ⟨hedit.reg_hr hwf, hedit.bit_co hwf⟩

/-- Settles O42: a handler leaves the store, or writes coils, or writes holding registers. -/
theorem noRequestWritesReadOnlySpaces : Obligations.NoRequestWritesReadOnlySpaces := by
  intro s t req rest hs hstep
  rw [step_transaction_eq hs] at hstep
  cases hstep
  cases hout : outcomeOf req (s.load req) with
  | error k => exact ⟨rfl, rfl⟩
  | ok reply =>
    obtain ⟨_, hh⟩ := outcomeOf_ok hout
    simp only [State.ended, storeAfter]
    obtain hst | ⟨a, vs, _, hst, _⟩ | ⟨a, vs, _, hst, _⟩ := handle_store hh
    all_goals
      rw [hst]
      exact ⟨rfl, rfl⟩

/-- Settles O49: a host access in range is one read, or one write of one element. -/
theorem hostAccessTouchesOneElement : Obligations.HostAccessTouchesOneElement := by
  refine fun s rest i hwf hi => ⟨fun sp hs => ?_, fun sp hs => ?_, fun sp v hs => ?_, fun sp v hs => ?_⟩
  · rw [step_hostReadBit hs, hostReadBit_eq, if_pos hi]
    rfl
  · rw [step_hostReadReg hs, hostReadReg_eq, if_pos hi]
    rfl
  · obtain ⟨_, hwrite⟩ | ⟨hout, _⟩ := hostWriteBit_cases { s with schedule := rest } sp i v
    · exact ⟨_, (step_hostWriteBit hs).trans (congrArg _ hwrite), fun sp' k => Store.bit_writeBits_one hi hwf sp sp' v k,
        Store.reg_writeBits _ _ _ _⟩
    · exact absurd hi (Nat.not_lt.mpr hout)
  · obtain ⟨_, hwrite⟩ | ⟨hout, _⟩ := hostWriteReg_cases { s with schedule := rest } sp i v
    · exact ⟨_, (step_hostWriteReg hs).trans (congrArg _ hwrite), fun sp' k => Store.reg_writeRegs_one hi hwf sp sp' v k,
        Store.bit_writeRegs _ _ _ _⟩
    · exact absurd hi (Nat.not_lt.mpr hout)

/-- Settles O50: each of the four accesses fails its range check. -/
theorem hostAccessOutsideSpaceTouchesNothing : Obligations.HostAccessOutsideSpaceTouchesNothing := by
  intro s rest i hout hs
  have hnot : ¬ i < s.params.size := Nat.not_lt.mpr hout
  obtain ⟨sp, hs⟩ | ⟨sp, hs⟩ | ⟨sp, v, hs⟩ | ⟨sp, v, hs⟩ := hs
  · rw [step_hostReadBit hs, hostReadBit_eq, if_neg hnot]
    rfl
  · rw [step_hostReadReg hs, hostReadReg_eq, if_neg hnot]
    rfl
  · obtain ⟨hin, _⟩ | ⟨_, hwrite⟩ := hostWriteBit_cases { s with schedule := rest } sp i v
    · exact absurd hin hnot
    · exact (step_hostWriteBit hs).trans (congrArg _ hwrite)
  · obtain ⟨hin, _⟩ | ⟨_, hwrite⟩ := hostWriteReg_cases { s with schedule := rest } sp i v
    · exact absurd hin hnot
    · exact (step_hostWriteReg hs).trans (congrArg _ hwrite)

/-- Settles O51: a reset keeps only what is the run's own, and the parameters. -/
theorem resetStepForgetsStore : Obligations.ResetStepForgetsStore :=
  fun _ _ hs => step_reset hs

/-- Settles O52: nothing is presented. -/
theorem idleStepChangesNothing : Obligations.IdleStepChangesNothing :=
  fun _ hs => step_idle hs

/-- Settles O39: the zero store is canonical, and nothing has been emitted. -/
theorem resetMeetsInvariant : Obligations.ResetMeetsInvariant :=
  ⟨Store.zero_wf _, rfl, rfl, .inl rfl, fun _ he => absurd he List.not_mem_nil⟩

/-- Settles O40: an array that lists no element reads 0 everywhere. -/
theorem resetStoreIsAllZero : Obligations.ResetStoreIsAllZero :=
  fun _ _ => ⟨rfl, rfl, rfl, rfl⟩

end Sys2Proof.Machine


/-! Proofs of the family `42_write.md`, the law of writing and reading back (rule R194), over runs of any steps. -/

namespace Sys2Proof.Machine

section Runs

/-- What a run of the steps `mid` from `s` to `u` keeps: the parameters, the canonical form, and every element that no step
names (rules R31, R33, R44). -/
structure KeptThrough (mid : List RunStep) (s u : State) : Prop where
  params : u.params = s.params
  wf : u.store.wf u.params.size = true
  holding : ∀ a, (∀ m ∈ mid, m.namesHolding a = false) → u.store.reg .hr a = s.store.reg .hr a
  coil : ∀ a, (∀ m ∈ mid, m.namesCoil a = false) → u.store.bit .co a = s.store.bit .co a

variable {s t u : State} {rest : List RunStep}

/-- The steps presented first are all taken, one after the other. -/
theorem run_takes : ∀ {mid : List RunStep} {s : State}, s.schedule = mid ++ rest →
    s.store.wf s.params.size = true →
    ∃ u, run mid.length s = .next u ∧ u.schedule = rest ∧ KeptThrough mid s u
  | [], s, hs, hwf => ⟨s, rfl, hs, rfl, hwf, fun _ _ => rfl, fun _ _ => rfl⟩
  | m :: mid, s, hs, hwf => by
    obtain ⟨t, hstep, hsched, hparams, hedit⟩ := step_takes hs
    obtain ⟨u, hrun, hrest, hkept⟩ := run_takes hsched (hparams ▸ hedit.wf hwf)
    refine ⟨u, ?_, hrest, hkept.params.trans hparams, hkept.wf, fun a ha => ?_, fun a ha => ?_⟩
    · simp only [List.length_cons, run, hstep, hrun]
    · obtain ⟨hm, hmid⟩ := List.forall_mem_cons.mp ha
      exact (hkept.holding a hmid).trans (hedit.reg_hr hwf hm)
    · obtain ⟨hm, hmid⟩ := List.forall_mem_cons.mp ha
      exact (hkept.coil a hmid).trans (hedit.bit_co hwf hm)

/-- One step more at the end of a run. -/
theorem run_succ : ∀ {k : Nat} {s : State}, run k s = .next u → step u = .next t → run (k + 1) s = .next t
  | 0, s, hrun, hstep => by
    cases hrun
    simp only [run, hstep]
  | k + 1, s, hrun, hstep => by
    rw [run] at hrun ⊢
    cases hfirst : step s with
    | next s' =>
      rw [hfirst] at hrun
      exact run_succ hrun hstep
    | fault r =>
      rw [hfirst] at hrun
      cases hrun
    | refused r =>
      rw [hfirst] at hrun
      cases hrun

/-- A write request whose handler does not fail, then any steps: they start from what the write left. -/
theorem run_write_takes {req : List Byte} {mid : List RunStep} {h : Header} {i : Instr} {pdu : List Byte} {st : Store}
    (hwf : s.store.wf s.params.size = true) (hs : s.schedule = .transaction req :: (mid ++ rest))
    (hd : decodeFrame req = .ok (h, i)) (hh : handle i (s.load req) = .ok (pdu, st)) :
    ∃ t u, t.store = st ∧ t.params = s.params ∧ run (mid.length + 1) s = .next u ∧ u.schedule = rest ∧
      KeptThrough mid t u := by
  obtain ⟨t, hstep, hsched, hparams, hedit⟩ := step_takes hs
  obtain ⟨u, hrun, hrest, hkept⟩ := run_takes hsched (hparams ▸ hedit.wf hwf)
  refine ⟨t, u, ?_, hparams, ?_, hrest, hkept⟩
  · rw [step_of_handle_ok hs hd hh] at hstep
    cases hstep
    rfl
  · simp only [run, hstep, hrun]

end Runs

section Reads

variable {s : State} {a : U16}

/-- Read Holding Registers of one register in range answers its two bytes (rules R60, R172). -/
theorem handle_rdhold_one (ha : a.toNat < s.params.size) : handle (.rdhold (.fields a 1)) s =
    .ok ([0x03, 0x02] ++ enc16 (s.store.reg .hr a.toNat), s.store) :=
  (readRegs_inRange (start := a) (qty := 1) ha .hr 0x03).trans (readReply_fits (d := enc16 (s.store.reg .hr a.toNat)) (Nat.le_add_left 2 253) _ _)

/-- Read Coils of one coil in range answers it as the low bit of one byte (rules R62, R170). -/
theorem handle_rdcoils_one (ha : a.toNat < s.params.size) : handle (.rdcoils (.fields a 1)) s =
    .ok ([0x01, 0x01, if s.store.bit .co a.toNat then 0x01 else 0x00], s.store) := by
  have hpack (b : Bool) : pack [b] = [if b then 0x01 else 0x00] := by cases b <;> rfl
  refine (readBits_inRange (start := a) (qty := 1) ha .co 0x01).trans ?_
  change readReply 0x01 s.store (pack [s.store.bit .co a.toNat]) = _
  rw [hpack]
  rfl

end Reads

section Writes

variable {s : State} {w : Instr} {a : Nat}

/-- A handler that puts `v` into holding register `a` does not fail, and the store it leaves holds it (rules R191, R193). -/
theorem handle_putsHolding {v : U16} (hwf : s.store.wf s.params.size = true)
    (hputs : Instr.putsHolding s.params.size a w = some v) :
    a < s.params.size ∧ ∃ pdu st, handle w s = .ok (pdu, st) ∧ st.reg .hr a = v := by
  cases w with
  | wrreg op =>
    cases op with
    | badLength raw => cases hputs
    | fields addr value =>
      obtain ⟨⟨rfl, ha⟩, hv⟩ := Option.ite_none_right_eq_some.mp hputs
      refine ⟨ha, _, _, writeSingleRegister_inRange ha, ?_⟩
      rw [Store.reg_writeRegs_one ha hwf, if_pos ⟨rfl, rfl⟩]
      exact Option.some.inj hv
  | wrregs op =>
    cases op with
    | tooShort raw => cases hputs
    | fields start qty bc data =>
      obtain ⟨⟨hbc, hd, hr, hlo, hhi⟩, hv⟩ := Option.ite_none_right_eq_some.mp hputs
      refine ⟨by omega, _, _, (writeMultipleRegisters_wellShaped hbc (hbc.trans hd.symm)).trans
        (if_pos ((inRange_iff s _ _).mpr hr)), ?_⟩
      rw [Store.reg_writeRegs_pairs hr hwf hd, if_pos ⟨rfl, hlo, hhi⟩]
      exact Option.some.inj hv
  | _ => cases hputs

/-- A handler that puts `b` into coil `a` does not fail, and the store it leaves holds it (rules R190, R192). -/
theorem handle_putsCoil {b : Bool} (hwf : s.store.wf s.params.size = true)
    (hputs : Instr.putsCoil s.params.size a w = some b) :
    a < s.params.size ∧ ∃ pdu st, handle w s = .ok (pdu, st) ∧ st.bit .co a = b := by
  cases w with
  | wrcoil op =>
    cases op with
    | badLength raw => cases hputs
    | fields addr value =>
      obtain ⟨⟨rfl, ha⟩, hb⟩ := Option.ite_none_right_eq_some.mp hputs
      refine ⟨ha, _, _, writeSingleCoil_inRange ha, ?_⟩
      rw [Store.bit_writeBits_one ha hwf, if_pos ⟨rfl, rfl⟩]
      exact Option.some.inj hb
  | wrcoils op =>
    cases op with
    | tooShort raw => cases hputs
    | fields start qty bc data =>
      obtain ⟨⟨hbc, hq, hr, hlo, hhi⟩, hb⟩ := Option.ite_none_right_eq_some.mp hputs
      refine ⟨by omega, _, _, (writeMultipleCoils_wellShaped hbc (hbc ▸ hq)).trans
        (if_pos ((inRange_iff s _ _).mpr hr)), ?_⟩
      rw [Store.bit_writeBits_unpack hr hwf, if_pos ⟨rfl, hlo, hhi⟩]
      exact Option.some.inj hb
  | _ => cases hputs

end Writes

/-- Settles O46: the write leaves `v`, the steps between keep it, and the read answers what it finds. -/
theorem holdingWriteThenReadReturnsValue : Obligations.HoldingWriteThenReadReturnsValue := by
  intro s reqW mid rest hw hr w a v hwf hd hputs hmid hs
  obtain ⟨ha, pdu, st, hh, hv⟩ := handle_putsHolding (s := s.load reqW) hwf hputs
  obtain ⟨t, u, rfl, hparams, hrun, hrest, hkept⟩ := run_write_takes hwf hs hd hh
  have hread := step_of_handle_ok hrest (frameRoundTrip hr (.rdhold (.fields a 1)) rfl)
    (handle_rdhold_one (by rwa [load_params, hkept.params, hparams]))
  refine ⟨_, run_succ hrun hread, ?_⟩
  rw [load_store, hkept.holding a.toNat hmid, hv]
  rfl

/-- Settles O47: the write leaves `b`, the steps between keep it, and the read answers what it finds. -/
theorem coilWriteThenReadReturnsBit : Obligations.CoilWriteThenReadReturnsBit := by
  intro s reqW mid rest hw hr w a b hwf hd hputs hmid hs
  obtain ⟨ha, pdu, st, hh, hb⟩ := handle_putsCoil (s := s.load reqW) hwf hputs
  obtain ⟨t, u, rfl, hparams, hrun, hrest, hkept⟩ := run_write_takes hwf hs hd hh
  have hread := step_of_handle_ok hrest (frameRoundTrip hr (.rdcoils (.fields a 1)) rfl)
    (handle_rdcoils_one (by rwa [load_params, hkept.params, hparams]))
  refine ⟨_, run_succ hrun hread, ?_⟩
  rw [load_store, hkept.coil a.toNat hmid, hb]
  rfl

end Sys2Proof.Machine


/-! Proofs of the family `30_encoding.md`, second part: the lines of the assembler (rules R106, R107). -/

namespace Sys2Proof.Machine

section Payloads

variable {h : Header} {fc : Byte} {pl : List Byte}

/-- A payload that the length field can count is framed (rule R106). -/
theorem assemblePdu_fits (hfit : 2 + pl.length ≤ 65535) : assemblePdu h fc pl = some (frameOfPdu h (fc :: pl)) :=
  if_neg (Nat.not_lt.mpr hfit)

theorem assemblePdu_refused (hlong : 65535 < 2 + pl.length) : assemblePdu h fc pl = none :=
  if_pos hlong

/-- A payload of two u16 fields always fits. -/
theorem assemblePdu_two_fields (a b : U16) :
    assemblePdu h fc (enc16 a ++ enc16 b) = some (frameOfPdu h (fc :: (enc16 a ++ enc16 b))) := by
  refine assemblePdu_fits ?_
  rw [List.length_append, enc16_length, enc16_length]
  decide

/-- A payload of a MULTI head and a data tail that its byte count can count always fits. -/
theorem assemblePdu_multi (a b : U16) (bc : Byte) {data : List Byte} (hdata : data.length ≤ 255) :
    assemblePdu h fc (encodeMulti (.fields a b bc data)) =
      some (frameOfPdu h (fc :: encodeMulti (.fields a b bc data))) := by
  refine assemblePdu_fits ?_
  simp only [encodeMulti, List.length_append, enc16_length, List.length_cons, List.length_nil]
  omega

end Payloads

/-- Settles O53: each line is the encoded payload of its instruction, which fits where the line's lists do. -/
theorem assembledLinesAreTheirInstructions : Obligations.AssembledLinesAreTheirInstructions := by
  intro h a b fc bytes vs
  refine ⟨assemblePdu_two_fields a b, assemblePdu_two_fields a b, assemblePdu_two_fields a b, assemblePdu_two_fields a b,
    assemblePdu_two_fields a b, assemblePdu_two_fields a b, fun hbytes => ?_, fun hvs => ?_,
    assemblePdu_fits (by decide), assemblePdu_fits, assemblePdu_refused, rfl⟩
  · exact (if_neg (Nat.not_lt.mpr hbytes)).trans (assemblePdu_multi a b _ hbytes)
  · refine (if_neg (Nat.not_lt.mpr hvs)).trans (assemblePdu_multi a _ _ ?_)
    rwa [flatMap_enc16_length]

/-- Settles O54: each is defined as its line. -/
theorem pseudoInstructionsExpand : Obligations.PseudoInstructionsExpand :=
  fun _ _ _ _ => ⟨rfl, rfl, rfl, rfl⟩

end Sys2Proof.Machine
